-- ==== Sys2Proof/Word.lean ====
section
/-! DEFINITION. The value types of ZP-CORE: cells, cell sequences, bus words, bus transactions
(spec/00_scope.md R13 to R15, spec/20_memory.md R50, spec/30_encoding.md R70). -/

namespace Sys2Proof

/-- A cell (nibble): a 4-bit value, bit 0 least significant (00_scope.md R14, R17). -/
abbrev Cell := BitVec 4

/-- A state-shaped value: cells 0 to 15 of the row-major 4×4 grid (00_scope.md R15, 10_state.md R21). -/
abbrev Cells := Vector Cell 16

/-- A round-tweakey: 8 cells (10_state.md R23). -/
abbrev RoundTweakey := Vector Cell 8

/-- A bus data word (20_memory.md R50). -/
abbrev Word64 := BitVec 64

/-- A register word address (20_memory.md R50). -/
abbrev Addr := BitVec 8

/-- A bus transaction, format BUS: write enable, address and write data (30_encoding.md R70). -/
structure BusTx where
  we : Bool
  addr : Addr
  data : Word64
deriving DecidableEq, Repr

end Sys2Proof
end

