-- ==== Sys2Proof/Config.lean ====
section
/-! DEFINITION. What a build of ZP-CORE fixes: the parameters that the spec leaves OPEN
(spec/00_scope.md R5 to R12, spec/92_eei_decisions.md D4, D7, D8). -/

namespace Sys2Proof

/-- Which index picks the round constant of a round (00_scope.md R12): the tweakey-stream index
(`stream`) or the branch round number (`branch`). -/
inductive RcIndexMode where
  | stream
  | branch
deriving DecidableEq, Repr

/-- A 4×4 matrix over GF(2), row by row: entry `m[i][j]` (00_scope.md R10). -/
abbrev Matrix4 := Vector (Vector Bool 4) 4

/-- The build parameters. `State` carries one `Build`, which no step writes, so that every statement
about a state holds for every build (log entry 1; DESIGN CHOICE, safe). -/
structure Build where
  /-- `SBOX`, indexed by the input cell (00_scope.md R5). -/
  sbox : Vector Cell 16
  /-- `P`, the state's cell permutation (00_scope.md R6). -/
  perm : Vector (Fin 16) 16
  /-- `PT`, the tweakey schedule's cell permutation (00_scope.md R7). -/
  tkPerm : Vector (Fin 16) 16
  /-- `RC`, the 62 six-bit round constants (00_scope.md R8). -/
  rc : Vector (BitVec 6) 62
  /-- `C2`, the fixed 2-bit constant of cell 8 (00_scope.md R9). -/
  c2 : BitVec 2
  /-- `MIXM`, the diffusion matrix (00_scope.md R10). -/
  mixm : Matrix4
  /-- `N_MAX`, the depth of the round-tweakey stream (00_scope.md R11). -/
  nMax : Nat
  /-- `RC_INDEX_MODE` (00_scope.md R12). -/
  rcMode : RcIndexMode
deriving DecidableEq, Repr

end Sys2Proof
end

