-- ==== Sys2Proof/Syntax.lean ====
section
/-! DEFINITION. The instructions of ZP-CORE, one constructor per row of spec/opcode_table.json
(spec/30_encoding.md R70, R73). -/

namespace Sys2Proof

/-- One bus transaction of the host, as the decoder names it: a read, a plain write, or one of the
fifteen commands (a write of a command word to CMD, 30_encoding.md R71, R73). The IMM6 operand is
kept as its 6 bits; its value is `toNat` (R72). -/
inductive Instr where
  /-- `RD a`: read register address `a` (20_memory.md R52). -/
  | rd (addr : Addr)
  /-- `WR a, v`: write the word `v` to register address `a` (20_memory.md R53). -/
  | wr (addr : Addr) (data : Word64)
  /-- `NOP` (40_nibble_primitives.md R105). -/
  | nop
  /-- `SUB` (R106). -/
  | sub
  /-- `ISUB` (R107). -/
  | isub
  /-- `PERM` (R108). -/
  | perm
  /-- `IPERM` (R109). -/
  | iperm
  /-- `MIX` (R110). -/
  | mix
  /-- `IMIX` (R111). -/
  | imix
  /-- `ADDC k` (R112). -/
  | addc (k : BitVec 6)
  /-- `ADDTK k` (R113). -/
  | addtk (k : BitVec 6)
  /-- `TKUPD` (41_tweakey_schedule.md R148). -/
  | tkupd
  /-- `TKGEN N` (R147). -/
  | tkgen (n : BitVec 6)
  /-- `ROUND r` (42_round_engine.md R174). -/
  | round (r : BitVec 6)
  /-- `IROUND r` (R175). -/
  | iround (r : BitVec 6)
  /-- `ENC` (R176). -/
  | enc
  /-- `DEC` (R177). -/
  | dec
deriving DecidableEq, Repr

end Sys2Proof
end

