-- ==== Sys2Proof/WellFormed.lean ====
section
/-! DEFINITION. Which instructions are the decoder's own reading of their transaction. -/

namespace Sys2Proof

/-- A word that encodes one of the fifteen commands: reserved bits 0, OP not 0xF, and IMM6 = 0 unless
OP is one of 0x7, 0x8, 0xA, 0xB, 0xC (30_encoding.md R71, R74 to R76). -/
def isCommandWord (v : Word64) : Bool :=
  let op := (v.extractLsb' 12 4).toNat
  v.extractLsb' 16 48 == 0 && v.extractLsb' 6 6 == 0 && op != 0xF &&
    (op == 0x7 || op == 0x8 || op == 0xA || op == 0xB || op == 0xC || v.extractLsb' 0 6 == 0)

/-- Every operand is held in a type of its own width, so the one thing left to check is that a plain
write is no second spelling of a command: `WR 0x05, v` with a command word `v` decodes to that command
(log entry 7; DESIGN CHOICE, safe: `exec` gives both spellings the same effect). -/
def Instr.wellFormed : Instr → Bool
  | .wr a v => !(a == 0x05 && isCommandWord v)
  | .rd _ => true
  | .nop => true
  | .sub => true
  | .isub => true
  | .perm => true
  | .iperm => true
  | .mix => true
  | .imix => true
  | .addc _ => true
  | .addtk _ => true
  | .tkupd => true
  | .tkgen _ => true
  | .round _ => true
  | .iround _ => true
  | .enc => true
  | .dec => true

end Sys2Proof
end

