-- ==== Sys2Proof/Decode.lean ====
section
/-! DEFINITION. Decoding and encoding of bus transactions and command words
(spec/30_encoding.md R70 to R77). -/

namespace Sys2Proof

/-- The register address of CMD (20_memory.md R51). -/
def cmdAddr : Addr := 0x05

/-- Why a word written to CMD is no command. All three raise ILLEGAL_CMD (30_encoding.md R74 to R76). -/
inductive IllegalCommand where
  /-- a bit of v[63:16] or v[11:6] is set (R76) -/
  | reservedBits
  /-- OP = 0xF (R75) -/
  | reservedOpcode
  /-- IMM6 ≠ 0 on a command that takes no operand (R74) -/
  | strayOperand
deriving DecidableEq, Repr

/-- The command of opcode `op` with operand `imm`, read by the command map (30_encoding.md R71, R73). -/
def commandOf (op : BitVec 4) (imm : BitVec 6) : Except IllegalCommand Instr :=
  let bare (i : Instr) : Except IllegalCommand Instr :=
    if imm = 0 then .ok i else .error .strayOperand
  match op.toNat with
  | 0x0 => bare .nop
  | 0x1 => bare .sub
  | 0x2 => bare .isub
  | 0x3 => bare .perm
  | 0x4 => bare .iperm
  | 0x5 => bare .mix
  | 0x6 => bare .imix
  | 0x7 => .ok (.addc imm)
  | 0x8 => .ok (.addtk imm)
  | 0x9 => bare .tkupd
  | 0xA => .ok (.tkgen imm)
  | 0xB => .ok (.round imm)
  | 0xC => .ok (.iround imm)
  | 0xD => bare .enc
  | 0xE => bare .dec
  | _ => .error .reservedOpcode

/-- `decode(v)` of a word written to CMD: total, and independent of any state (30_encoding.md R71,
R76, R77). -/
def decodeCommand (v : Word64) : Except IllegalCommand Instr :=
  if v.extractLsb' 16 48 ≠ 0 ∨ v.extractLsb' 6 6 ≠ 0 then .error .reservedBits
  else commandOf (v.extractLsb' 12 4) (v.extractLsb' 0 6)

/-- The instruction that a bus transaction is (30_encoding.md R70, R71): a read ignores DATA; a write
to CMD of a command word is that command; every other write is a plain `WR`. -/
def decode (tx : BusTx) : Instr :=
  if tx.we then
    if tx.addr = cmdAddr then
      match decodeCommand tx.data with
      | .ok i => i
      | .error _ => .wr tx.addr tx.data
    else .wr tx.addr tx.data
  else .rd tx.addr

/-- The transaction that a notional 73-bit BUS word is: WE in [72], ADDR in [71:64], DATA in [63:0]
(30_encoding.md R70). -/
def BusTx.ofWord (w : BitVec 73) : BusTx where
  we := w.getLsbD 72
  addr := w.extractLsb' 64 8
  data := w.extractLsb' 0 64

/-- The notional 73-bit BUS word of a transaction (30_encoding.md R70). -/
def BusTx.toWord (tx : BusTx) : BitVec 73 :=
  BitVec.ofBool tx.we ++ tx.addr ++ tx.data

/-- The command word `(OP << 12) | IMM6` (30_encoding.md R73). -/
def commandWord (op : BitVec 4) (imm : BitVec 6) : Word64 :=
  (0#48 ++ op ++ 0#6 ++ imm : BitVec 64)

/-- The write of a command word to CMD (30_encoding.md R71). -/
def commandTx (op : BitVec 4) (imm : BitVec 6) : BusTx where
  we := true
  addr := cmdAddr
  data := commandWord op imm

/-- The transaction of an instruction; a read carries DATA = 0, which R70 says is ignored. -/
def encode : Instr → BusTx
  | .rd a => { we := false, addr := a, data := 0 }
  | .wr a v => { we := true, addr := a, data := v }
  | .nop => commandTx 0x0 0
  | .sub => commandTx 0x1 0
  | .isub => commandTx 0x2 0
  | .perm => commandTx 0x3 0
  | .iperm => commandTx 0x4 0
  | .mix => commandTx 0x5 0
  | .imix => commandTx 0x6 0
  | .addc k => commandTx 0x7 k
  | .addtk k => commandTx 0x8 k
  | .tkupd => commandTx 0x9 0
  | .tkgen n => commandTx 0xA n
  | .round r => commandTx 0xB r
  | .iround r => commandTx 0xC r
  | .enc => commandTx 0xD 0
  | .dec => commandTx 0xE 0

/-- The transaction that a word of the opcode table stands for: up to 64 bits, format CMD16, the word
is the DATA of `WR CMD`; longer, format BUS, the word is the notional 73-bit word (30_encoding.md
R70, R71; log entry 10). -/
def tableTx (nbits w : Nat) : BusTx :=
  if nbits ≤ 64 then { we := true, addr := cmdAddr, data := BitVec.ofNat 64 w }
  else BusTx.ofWord (BitVec.ofNat 73 w)

/-- The instruction the decoder reads from a word of the opcode table; `none` where a CMD16 word is
illegal, or where the word has bits that its format does not have (log entry 10). -/
def decodeTableWord (nbits w : Nat) : Option Instr :=
  if nbits ≤ 64 then
    if w < 2 ^ 64 then
      match decodeCommand (BitVec.ofNat 64 w) with
      | .ok _ => some (decode (tableTx nbits w))
      | .error _ => none
    else none
  else if w < 2 ^ 73 then some (decode (tableTx nbits w)) else none

end Sys2Proof
end

