-- ==== Sys2Proof/Machine/Tables.lean ====
section
/-! DEFINITION. The parameter tables: the recommended defaults, the legality conditions, and the
inverse tables that the parameters determine (spec/00_scope.md R5 to R12). -/

namespace Sys2Proof.Machine

open Sys2Proof

/-- Default `SBOX` (00_scope.md R5). PRESUMED, log entry 2: the spec recalls it from general knowledge. -/
def defaultSbox : Vector Cell 16 :=
  #v[0xC, 0x6, 0x9, 0x0, 0x1, 0xA, 0x2, 0xB, 0x3, 0x8, 0x5, 0xD, 0x4, 0xE, 0x7, 0xF]

/-- Default `P` (00_scope.md R6). PRESUMED, log entry 2. -/
def defaultPerm : Vector (Fin 16) 16 :=
  #v[0, 1, 2, 3, 7, 4, 5, 6, 10, 11, 8, 9, 13, 14, 15, 12]

/-- Default `PT` (00_scope.md R7). PRESUMED, log entry 2. -/
def defaultTkPerm : Vector (Fin 16) 16 :=
  #v[9, 15, 8, 13, 10, 14, 12, 11, 0, 1, 2, 3, 4, 5, 6, 7]

/-- Default `RC` (00_scope.md R8). PRESUMED, log entry 2. -/
def defaultRc : Vector (BitVec 6) 62 :=
  #v[0x01, 0x03, 0x07, 0x0F, 0x1F, 0x3E, 0x3D, 0x3B, 0x37, 0x2F, 0x1E, 0x3C, 0x39, 0x33, 0x27, 0x0E,
     0x1D, 0x3A, 0x35, 0x2B, 0x16, 0x2C, 0x18, 0x30, 0x21, 0x02, 0x05, 0x0B, 0x17, 0x2E, 0x1C, 0x38,
     0x31, 0x23, 0x06, 0x0D, 0x1B, 0x36, 0x2D, 0x1A, 0x34, 0x29, 0x12, 0x24, 0x08, 0x11, 0x22, 0x04,
     0x09, 0x13, 0x26, 0x0C, 0x19, 0x32, 0x25, 0x0A, 0x15, 0x2A, 0x14, 0x28, 0x10, 0x20]

/-- Default `C2` (00_scope.md R9). PRESUMED, log entry 2. -/
def defaultC2 : BitVec 2 := 2

/-- Default `MIXM` (00_scope.md R10). PRESUMED, log entry 2. -/
def defaultMixm : Matrix4 :=
  #v[#v[true, false, true, true],
     #v[true, false, false, false],
     #v[false, true, true, false],
     #v[true, false, true, false]]

/-- The build that the spec recommends (00_scope.md R5 to R12): the default tables, N_MAX = 62 and
RC_INDEX_MODE = STREAM (log entries 2 and 3). -/
def defaultBuild : Build where
  sbox := defaultSbox
  perm := defaultPerm
  tkPerm := defaultTkPerm
  rc := defaultRc
  c2 := defaultC2
  mixm := defaultMixm
  nMax := 62
  rcMode := .stream

/-- The cell positions 0 to 15 in order. -/
def positions : List (Fin 16) := [0, 1, 2, 3, 4, 5, 6, 7, 8, 9, 10, 11, 12, 13, 14, 15]

/-- `SBOX[x]` (00_scope.md R5). -/
def sboxAt (b : Build) (x : Cell) : Cell := b.sbox[x.toNat]'x.isLt

/-- `SBOX_INV[x]`: the input that `SBOX` sends to `x` (00_scope.md R5). The spec's SBOX is a bijection,
so the search finds exactly one; 0 stands for "none" in an illegal build only. -/
def sboxInvAt (b : Build) (x : Cell) : Cell :=
  match positions.find? (fun j => b.sbox[j] == x) with
  | some j => BitVec.ofNat 4 j.val
  | none => 0

/-- `P_INV[i]`: the position that `P` sends to `i` (00_scope.md R6). -/
def permInvAt (b : Build) (i : Fin 16) : Fin 16 :=
  (positions.find? (fun j => b.perm[j] == i)).getD 0

/-- `RC[c]` for 0 ≤ c ≤ 61 (00_scope.md R8). No step of a legal build reaches another index
(42_round_engine.md R171, 40_nibble_primitives.md R112); log entry 8. -/
def rcAt (b : Build) (c : Nat) : BitVec 6 :=
  if h : c < 62 then b.rc[c] else 0

/-- A row vector of four bits. -/
abbrev Row4 := Vector Bool 4

/-- The XOR of the four bits of two rows' products: the scalar product over GF(2). -/
def dot4 (x y : Row4) : Bool :=
  (x[0] && y[0]) ^^ (x[1] && y[1]) ^^ (x[2] && y[2]) ^^ (x[3] && y[3])

/-- Column `j` of a matrix. -/
def column4 (m : Matrix4) (j : Fin 4) : Row4 := #v[m[0][j], m[1][j], m[2][j], m[3][j]]

/-- The product of two matrices over GF(2). -/
def mul4 (m n : Matrix4) : Matrix4 :=
  let row (i : Fin 4) : Row4 :=
    #v[dot4 m[i] (column4 n 0), dot4 m[i] (column4 n 1), dot4 m[i] (column4 n 2), dot4 m[i] (column4 n 3)]
  #v[row 0, row 1, row 2, row 3]

/-- The unit matrix. -/
def one4 : Matrix4 :=
  #v[#v[true, false, false, false], #v[false, true, false, false],
     #v[false, false, true, false], #v[false, false, false, true]]

/-- Row number `n` of the sixteen rows: entry `j` is bit `j` of `n`. -/
def rowOfNat (n : Nat) : Row4 := #v[n.testBit 0, n.testBit 1, n.testBit 2, n.testBit 3]

/-- Row `i` of the inverse of `m`: the row `r` with `r · m` = unit row `i`. -/
def inverseRow (m : Matrix4) (i : Fin 4) : Row4 :=
  let hits (n : Nat) : Bool :=
    #v[dot4 (rowOfNat n) (column4 m 0), dot4 (rowOfNat n) (column4 m 1),
       dot4 (rowOfNat n) (column4 m 2), dot4 (rowOfNat n) (column4 m 3)] == one4[i]
  rowOfNat (([0, 1, 2, 3, 4, 5, 6, 7, 8, 9, 10, 11, 12, 13, 14, 15].find? hits).getD 0)

/-- The inverse of a matrix over GF(2), for `MIXM_INV` (00_scope.md R10). -/
def inverse4 (m : Matrix4) : Matrix4 :=
  #v[inverseRow m 0, inverseRow m 1, inverseRow m 2, inverseRow m 3]

/-- `MIXM_INV`, determined by `MIXM` (00_scope.md R10). -/
def mixmInv (b : Build) : Matrix4 := inverse4 b.mixm

/-- The legal builds: `SBOX`, `P` and `PT` are bijections of their 16 values (R5 to R7; on a finite set
an injection is one), `MIXM` has its inverse over GF(2) (R10), and 1 ≤ N_MAX ≤ 62 (R11). RC and C2
have no condition but their widths (R8, R9). -/
abbrev LegalBuild (b : Build) : Prop :=
  (∀ i j : Fin 16, b.sbox[i] = b.sbox[j] → i = j) ∧
  (∀ i j : Fin 16, b.perm[i] = b.perm[j] → i = j) ∧
  (∀ i j : Fin 16, b.tkPerm[i] = b.tkPerm[j] → i = j) ∧
  mul4 (mixmInv b) b.mixm = one4 ∧ mul4 b.mixm (mixmInv b) = one4 ∧
  1 ≤ b.nMax ∧ b.nMax ≤ 62

end Sys2Proof.Machine
end

