-- ==== Sys2Proof/Machine/State.lean ====
section
/-! DEFINITION. The state of ZP-CORE as plain data, its reset values, and the reasons a step can stop
(spec/10_state.md, spec/70_reset_and_hazards.md R230). -/

namespace Sys2Proof.Machine

open Sys2Proof

/-- The fork-parameter register CFG (10_state.md R25). Its reserved bits are no storage. -/
structure Cfg where
  /-- round count R, bits [5:0] -/
  r : BitVec 6
  /-- fork point Ri, bits [13:8] -/
  ri : BitVec 6
  /-- skip length R0, bits [21:16] -/
  r0 : BitVec 6
deriving DecidableEq, Repr

/-- The status register STATUS (10_state.md R28). Its reserved bits are no storage. -/
structure Status where
  /-- outcome code of the last bus write to any address but STATUS, bits [3:0] -/
  err : BitVec 4
  /-- set whenever ERR is written with a non-zero code, bit [8] -/
  sticky : Bool
deriving DecidableEq, Repr

/-- What reaches the core from outside: a bus transaction (20_memory.md R52, R53), a reset between
transactions, or a reset that arrives while a transaction is under way (70_reset_and_hazards.md R230). -/
inductive HostEvent where
  | transaction (tx : BusTx)
  | reset
  | resetDuring (tx : BusTx)
deriving DecidableEq, Repr

/-- The state (10_state.md R31), with three fields of the model's own: `build` (the parameters, log
entry 1), `pending` and `responses` (the host's side of the bus, log entries 4 and 5). -/
structure State where
  /-- ST (10_state.md R20) -/
  st : Cells
  /-- TK1 (R22) -/
  tk1 : Cells
  /-- TK2 (R22) -/
  tk2 : Cells
  /-- TK3 (R22) -/
  tk3 : Cells
  /-- RTK[0..N_MAX-1] (R23) -/
  rtk : List RoundTweakey
  /-- RTK_LEN (R24) -/
  rtkLen : Nat
  /-- CFG (R25) -/
  cfg : Cfg
  /-- STATUS (R28) -/
  status : Status
  /-- the build parameters (00_scope.md R5 to R12); no step writes them -/
  build : Build
  /-- host events not yet taken, in issue order -/
  pending : List HostEvent
  /-- words that reads have returned to the host, oldest first -/
  responses : List Word64
deriving DecidableEq, Repr

/-- Faults. ZP-CORE has none: every bus transaction has a defined outcome, an error being a recorded
code and no trap (60_exceptions.md R200 to R205), so no step stops the machine. -/
inductive Fault where
deriving DecidableEq, Repr

/-- Refusals. -/
inductive Refusal where
  /-- Raised by an arm of `exec` whose instruction has no meaning yet (safe: the step stops). No arm of
  this model raises it. -/
  | notModelled (mnemonic : String)
deriving DecidableEq, Repr

/-- Sixteen zero cells. -/
def zeroCells : Cells := Vector.replicate 16 0

/-- Eight zero cells. -/
def zeroTweakey : RoundTweakey := Vector.replicate 8 0

/-- The reset state of a machine of build `b` (70_reset_and_hazards.md R230), with nothing pending and
nothing returned to the host (log entries 4 and 5). -/
def State.resetOf (b : Build) : State where
  st := zeroCells
  tk1 := zeroCells
  tk2 := zeroCells
  tk3 := zeroCells
  rtk := List.replicate b.nMax zeroTweakey
  rtkLen := 0
  cfg := { r := 0, ri := 0, r0 := 0 }
  status := { err := 0, sticky := false }
  build := b
  pending := []
  responses := []

/-- The reset state of the build that the spec recommends (log entries 2 and 3). -/
def State.reset : State := State.resetOf defaultBuild

end Sys2Proof.Machine
end

