-- ==== Sys2Proof/Machine/Flags.lean ====
section
/-! DEFINITION. STATUS: the error codes and how ERR and STICKY are written
(spec/10_state.md R28, spec/60_exceptions.md R200 to R202). -/

namespace Sys2Proof.Machine

open Sys2Proof

/-- The errors a write can raise (60_exceptions.md R200). -/
inductive ErrCode where
  | illegalCmd
  | range
  | schedShort
  | cfgInvalid
  | roWrite
  | badAddr
deriving DecidableEq, Repr

/-- The code of an error in STATUS.ERR (60_exceptions.md R200). -/
def errCode : ErrCode → BitVec 4
  | .illegalCmd => 1
  | .range => 2
  | .schedShort => 3
  | .cfgInvalid => 4
  | .roWrite => 5
  | .badAddr => 6

/-- STATUS after a successful write: ERR is OK, STICKY unchanged (60_exceptions.md R201). -/
def okStatus (x : Status) : Status := { x with err := 0 }

/-- STATUS after a write that raised `c`: ERR is the code, STICKY is 1 (60_exceptions.md R202). -/
def errorStatus (c : ErrCode) : Status := { err := errCode c, sticky := true }

/-- STATUS after a host write of `v` to it: bit 8 clears STICKY, ERR is unchanged (10_state.md R28). -/
def writeStatus (v : Word64) (x : Status) : Status :=
  if v.getLsbD 8 then { x with sticky := false } else x

/-- The bus word of STATUS: STICKY in [8], ERR in [3:0] (20_memory.md R52). -/
def statusWord (x : Status) : Word64 :=
  (0#55 ++ BitVec.ofBool x.sticky ++ 0#4 ++ x.err : BitVec 64)

end Sys2Proof.Machine
end

