-- ==== Sys2Proof/Machine/Operands.lean ====
section
/-! DEFINITION. The operand forms: IMM6, the fields of CFG, the stream index and the constant index of
a round (spec/30_encoding.md R72, spec/10_state.md R25, R26, spec/42_round_engine.md R170, R171). -/

namespace Sys2Proof.Machine

open Sys2Proof

/-- IMM6: zero-extended, unscaled, a natural number 0 to 63 (30_encoding.md R72). -/
def imm6 (k : BitVec 6) : Nat := k.toNat

/-- The CFG fields of a bus word; the reserved bits are ignored (10_state.md R25). -/
def cfgOfWord (v : Word64) : Cfg where
  r := v.extractLsb' 0 6
  ri := v.extractLsb' 8 6
  r0 := v.extractLsb' 16 6

/-- The bus word of CFG: R0 in [21:16], RI in [13:8], R in [5:0], reserved bits 0 (20_memory.md R52). -/
def cfgWord (c : Cfg) : Word64 :=
  (0#42 ++ c.r0 ++ 0#2 ++ c.ri ++ 0#2 ++ c.r : BitVec 64)

/-- CFG legality: RI ≤ R and R + R0 ≤ N_MAX, in exact arithmetic (10_state.md R26, 00_scope.md R18). -/
abbrev CfgLegal (nMax : Nat) (c : Cfg) : Prop :=
  c.ri.toNat ≤ c.r.toNat ∧ c.r.toNat + c.r0.toNat ≤ nMax

/-- idx(r), the stream index of round `r` (42_round_engine.md R170). -/
def streamIndex (c : Cfg) (r : Nat) : Nat :=
  if r < c.ri.toNat then r else r + c.r0.toNat

/-- cidx(r), the constant index of round `r` (42_round_engine.md R171). -/
def constantIndex (b : Build) (c : Cfg) (r : Nat) : Nat :=
  match b.rcMode with
  | .stream => streamIndex c r
  | .branch => r

/-- The bus word of HWCFG: NMAX in [5:0], RCMODE in [8] (10_state.md R29). -/
def hwcfgWord (b : Build) : Word64 :=
  (0#55 ++ BitVec.ofBool (b.rcMode == .branch) ++ 0#2 ++ BitVec.ofNat 6 b.nMax : BitVec 64)

end Sys2Proof.Machine
end

