-- ==== Sys2Proof/Machine/Ops.lean ====
section
/-! DEFINITION. The named operations over the registers: cell sequences and their bus words, the
address map, register updates, reading the stream, and how a write ends: its success or its error
(spec/20_memory.md R51 to R55, R61 to R63, spec/60_exceptions.md R200 to R205). -/

namespace Sys2Proof.Machine

open Sys2Proof

/-- The sixteen cells `f 0` to `f 15`. -/
def cellsOf (f : Fin 16 → Cell) : Cells :=
  #v[f 0, f 1, f 2, f 3, f 4, f 5, f 6, f 7, f 8, f 9, f 10, f 11, f 12, f 13, f 14, f 15]

/-- The eight cells `f 0` to `f 7`. -/
def tweakeyOf (f : Fin 8 → Cell) : RoundTweakey :=
  #v[f 0, f 1, f 2, f 3, f 4, f 5, f 6, f 7]

/-- `pack16`: cell 0 most significant (20_memory.md R54). -/
def pack16 (s : Cells) : Word64 :=
  (s[0] ++ s[1] ++ s[2] ++ s[3] ++ s[4] ++ s[5] ++ s[6] ++ s[7] ++
    s[8] ++ s[9] ++ s[10] ++ s[11] ++ s[12] ++ s[13] ++ s[14] ++ s[15] : BitVec 64)

/-- `unpack16`: cell i is v[63-4i : 60-4i] (20_memory.md R54). -/
def unpack16 (v : Word64) : Cells := cellsOf fun i => v.extractLsb' (60 - 4 * i.val) 4

/-- `pack8`: cell 0 in [31:28], bits [63:32] 0 (20_memory.md R55). -/
def pack8 (t : RoundTweakey) : Word64 :=
  (0#32 ++ t[0] ++ t[1] ++ t[2] ++ t[3] ++ t[4] ++ t[5] ++ t[6] ++ t[7] : BitVec 64)

/-- The registers that the address map names (20_memory.md R51). -/
inductive RegSel where
  | st
  | tk1
  | tk2
  | tk3
  | cfg
  | cmd
  | status
  | rtkLen
  | hwcfg
  | rtk (k : Nat)
  | unmapped
deriving DecidableEq, Repr

/-- The address map of a core of stream depth `nMax` (20_memory.md R51). -/
def regAt (nMax : Nat) (a : Addr) : RegSel :=
  match a.toNat with
  | 0x00 => .st
  | 0x01 => .tk1
  | 0x02 => .tk2
  | 0x03 => .tk3
  | 0x04 => .cfg
  | 0x05 => .cmd
  | 0x06 => .status
  | 0x07 => .rtkLen
  | 0x08 => .hwcfg
  | n => if 0x40 ≤ n ∧ n < 0x40 + nMax then .rtk (n - 0x40) else .unmapped

/-- RTK[k] (10_state.md R23). Every read a command makes is range-checked against RTK_LEN first, and a
bus read against N_MAX; an entry that the list does not hold reads as zeros (log entry 8). -/
def State.rtkAt (s : State) (k : Nat) : RoundTweakey := s.rtk.getD k zeroTweakey

/-- `ST <- x`. -/
def State.withSt (s : State) (x : Cells) : State := { s with st := x }

/-- `TK1 <- x`. -/
def State.withTk1 (s : State) (x : Cells) : State := { s with tk1 := x }

/-- `TK2 <- x`. -/
def State.withTk2 (s : State) (x : Cells) : State := { s with tk2 := x }

/-- `TK3 <- x`. -/
def State.withTk3 (s : State) (x : Cells) : State := { s with tk3 := x }

/-- Replace the stream and its length. -/
def State.withStream (s : State) (entries : List RoundTweakey) (len : Nat) : State :=
  { s with rtk := entries, rtkLen := len }

/-- `CFG <- c`. -/
def State.withCfg (s : State) (c : Cfg) : State := { s with cfg := c }

/-- Replace STATUS. -/
def State.withStatus (s : State) (x : Status) : State := { s with status := x }

/-- Return a word to the host (log entry 5). -/
def State.respond (s : State) (w : Word64) : State := { s with responses := s.responses ++ [w] }

/-- Replace the host events not yet taken. -/
def State.withPending (s : State) (evs : List HostEvent) : State := { s with pending := evs }

/-- `raise Error(c)`: STATUS records the code and STICKY, nothing else changes
(60_exceptions.md R202, R203, R205). There is no return from an error: the host's next transaction is
taken as any other. -/
def raiseError (c : ErrCode) (s : State) : State := s.withStatus (errorStatus c)

/-- The end of a bus write other than to STATUS: exactly one assignment to STATUS.ERR, OK over the new
state when the write succeeded, the code over the OLD state when it raised one
(60_exceptions.md R201, R203). -/
def finishWrite (s : State) (r : Except ErrCode State) : Host.Outcome State Fault Refusal :=
  match r with
  | .ok t => .next (t.withStatus (okStatus t.status))
  | .error c => .next (raiseError c s)

/-- `BusRead(a)`: the 64-bit word at a register address (20_memory.md R52, R62 to R64). -/
def busRead (s : State) (a : Addr) : Word64 :=
  match regAt s.build.nMax a with
  | .st => pack16 s.st
  | .tk1 => pack16 s.tk1
  | .tk2 => pack16 s.tk2
  | .tk3 => pack16 s.tk3
  | .cfg => cfgWord s.cfg
  | .cmd => 0
  | .status => statusWord s.status
  | .rtkLen => BitVec.ofNat 64 s.rtkLen
  | .hwcfg => hwcfgWord s.build
  | .rtk k => pack8 (s.rtkAt k)
  | .unmapped => 0

end Sys2Proof.Machine
end

