-- ==== Sys2Proof/Machine/Nibble.lean ====
section
/-! DEFINITION. The nibble primitives and their commands (spec/40_nibble_primitives.md). -/

namespace Sys2Proof.Machine

open Sys2Proof

/-- `sub_cells` (40_nibble_primitives.md R100). -/
def subCells (b : Build) (s : Cells) : Cells := cellsOf fun i => sboxAt b s[i]

/-- `isub_cells` (R100). -/
def isubCells (b : Build) (s : Cells) : Cells := cellsOf fun i => sboxInvAt b s[i]

/-- `permute_cells`, a gather (R101, 00_scope.md R6). -/
def permuteCells (b : Build) (s : Cells) : Cells := cellsOf fun i => s[b.perm[i]]

/-- `unpermute_cells` (R101). -/
def unpermuteCells (b : Build) (s : Cells) : Cells := cellsOf fun i => s[permInvAt b i]

/-- The row of a cell position: `i div 4` (10_state.md R21). -/
def gridRow (i : Fin 16) : Fin 4 := ⟨i.val / 4, by omega⟩

/-- The column of a cell position: `i mod 4` (10_state.md R21). -/
def gridColumn (i : Fin 16) : Fin 4 := ⟨i.val % 4, by omega⟩

/-- The cell position of a row and a column: `column + 4 * row` (10_state.md R21). -/
def gridCell (row column : Fin 4) : Fin 16 := ⟨column.val + 4 * row.val, by omega⟩

/-- A cell taken or left out. -/
def gate (keep : Bool) (x : Cell) : Cell := if keep then x else 0

/-- One output cell of a column: the XOR of the input cells that a matrix row selects (00_scope.md R10). -/
def mixRow (row : Row4) (a : Fin 4 → Cell) : Cell :=
  gate row[0] (a 0) ^^^ gate row[1] (a 1) ^^^ gate row[2] (a 2) ^^^ gate row[3] (a 3)

/-- Mixing every column with a matrix (40_nibble_primitives.md R102). -/
def mixColumns (m : Matrix4) (s : Cells) : Cells :=
  cellsOf fun i => mixRow m[gridRow i] fun k => s[gridCell k (gridColumn i)]

/-- `diffuse` (R102). -/
def diffuse (b : Build) (s : Cells) : Cells := mixColumns b.mixm s

/-- `undiffuse` (R102). -/
def undiffuse (b : Build) (s : Cells) : Cells := mixColumns (mixmInv b) s

/-- `add_constants`: rc[3:0] into cell 0, rc[5:4] into cell 4, C2 into cell 8 (R103). -/
def addConstants (b : Build) (c : Nat) (s : Cells) : Cells :=
  let rc := rcAt b c
  cellsOf fun i =>
    if i = 0 then s[i] ^^^ rc.extractLsb' 0 4
    else if i = 4 then s[i] ^^^ (rc.extractLsb' 4 2).setWidth 4
    else if i = 8 then s[i] ^^^ b.c2.setWidth 4
    else s[i]

/-- `add_tweakey`: the 8 cells into cells 0 to 7 (R104). -/
def addTweakey (t : RoundTweakey) (s : Cells) : Cells :=
  cellsOf fun i => if h : i.val < 8 then s[i] ^^^ t[i.val] else s[i]

/-- NOP (40_nibble_primitives.md R105). -/
def execNop (s : State) : Host.Outcome State Fault Refusal := finishWrite s (.ok s)

/-- SUB (R106). -/
def execSub (s : State) : Host.Outcome State Fault Refusal :=
  finishWrite s (.ok (s.withSt (subCells s.build s.st)))

/-- ISUB (R107). -/
def execIsub (s : State) : Host.Outcome State Fault Refusal :=
  finishWrite s (.ok (s.withSt (isubCells s.build s.st)))

/-- PERM (R108). -/
def execPerm (s : State) : Host.Outcome State Fault Refusal :=
  finishWrite s (.ok (s.withSt (permuteCells s.build s.st)))

/-- IPERM (R109). -/
def execIperm (s : State) : Host.Outcome State Fault Refusal :=
  finishWrite s (.ok (s.withSt (unpermuteCells s.build s.st)))

/-- MIX (R110). -/
def execMix (s : State) : Host.Outcome State Fault Refusal :=
  finishWrite s (.ok (s.withSt (diffuse s.build s.st)))

/-- IMIX (R111). -/
def execImix (s : State) : Host.Outcome State Fault Refusal :=
  finishWrite s (.ok (s.withSt (undiffuse s.build s.st)))

/-- ADDC k (R112). -/
def execAddc (k : BitVec 6) (s : State) : Host.Outcome State Fault Refusal :=
  finishWrite s
    (if imm6 k > 61 then .error .range
     else .ok (s.withSt (addConstants s.build (imm6 k) s.st)))

/-- ADDTK k (R113). -/
def execAddtk (k : BitVec 6) (s : State) : Host.Outcome State Fault Refusal :=
  finishWrite s
    (if imm6 k ≥ s.rtkLen then .error .schedShort
     else .ok (s.withSt (addTweakey (s.rtkAt (imm6 k)) s.st)))

end Sys2Proof.Machine
end

