-- ==== Sys2Proof/Machine/Tweakey.lean ====
section
/-! DEFINITION. The tweakey schedule and its commands (spec/41_tweakey_schedule.md). -/

namespace Sys2Proof.Machine

open Sys2Proof

/-- Linear-feedback map A: left by one, bit 0 is x[3] XOR x[2] (41_tweakey_schedule.md R140). -/
def lfsrA (x : Cell) : Cell :=
  (x <<< 1) ||| (BitVec.ofBool (x.getLsbD 3 ^^ x.getLsbD 2)).setWidth 4

/-- Linear-feedback map B: right by one, bit 3 is x[0] XOR x[3] (R141). -/
def lfsrB (x : Cell) : Cell :=
  (x >>> 1) ||| ((BitVec.ofBool (x.getLsbD 0 ^^ x.getLsbD 3)).setWidth 4 <<< 3)

/-- `tk_permute`, a gather (R143). -/
def tkPermute (b : Build) (w : Cells) : Cells := cellsOf fun i => w[b.tkPerm[i]]

/-- A map on the first 8 cells; cells 8 to 15 pass through (R144). -/
def onTopHalf (f : Cell → Cell) (w : Cells) : Cells :=
  cellsOf fun i => if i.val < 8 then f w[i] else w[i]

/-- The three tweakey words. -/
structure TkWords where
  w1 : Cells
  w2 : Cells
  w3 : Cells
deriving DecidableEq, Repr

/-- `tk_step`: every word permuted, map A on TK2's and map B on TK3's first 8 cells (R142, R144). -/
def tkStep (b : Build) (w : TkWords) : TkWords where
  w1 := tkPermute b w.w1
  w2 := onTopHalf lfsrA (tkPermute b w.w2)
  w3 := onTopHalf lfsrB (tkPermute b w.w3)

/-- `rtk_of`: the XOR of the first 8 cells of the three words (R145). -/
def rtkOf (w : TkWords) : RoundTweakey :=
  tweakeyOf fun i => w.w1[i.castLE (by decide : 8 ≤ 16)] ^^^ w.w2[i.castLE (by decide : 8 ≤ 16)] ^^^
    w.w3[i.castLE (by decide : 8 ≤ 16)]

/-- `schedule`: `n` round-tweakeys, the first from the seed words unchanged, one step before each later
one (R146). -/
def schedule (b : Build) (w : TkWords) : Nat → List RoundTweakey
  | 0 => []
  | n + 1 => rtkOf w :: schedule b (tkStep b w) n

/-- The tweakey words of a state. -/
def State.tkWords (s : State) : TkWords where
  w1 := s.tk1
  w2 := s.tk2
  w3 := s.tk3

/-- TKGEN N (R147): entries 0 to N-1 from the schedule, the rest of the stream cleared. -/
def execTkgen (n : BitVec 6) (s : State) : Host.Outcome State Fault Refusal :=
  finishWrite s
    (if imm6 n > s.build.nMax then .error .range
     else
       .ok (s.withStream
         (schedule s.build s.tkWords (imm6 n) ++ List.replicate (s.build.nMax - imm6 n) zeroTweakey)
         (imm6 n)))

/-- TKUPD (R148). -/
def execTkupd (s : State) : Host.Outcome State Fault Refusal :=
  let w := tkStep s.build s.tkWords
  finishWrite s (.ok (((s.withTk1 w.w1).withTk2 w.w2).withTk3 w.w3))

end Sys2Proof.Machine
end

