-- ==== Sys2Proof/Machine/Engine.lean ====
section
/-! DEFINITION. The round function, the forked engine and their commands
(spec/42_round_engine.md). -/

namespace Sys2Proof.Machine

open Sys2Proof

/-- `round_fwd` with the round-tweakey `t` and constant index `c` (42_round_engine.md R172). -/
def roundFwd (b : Build) (t : RoundTweakey) (c : Nat) (s : Cells) : Cells :=
  diffuse b (permuteCells b (addTweakey t (addConstants b c (subCells b s))))

/-- `round_inv` (R173). -/
def roundInv (b : Build) (t : RoundTweakey) (c : Nat) (s : Cells) : Cells :=
  isubCells b (addConstants b c (addTweakey t (unpermuteCells b (undiffuse b s))))

/-- Forward round `r` of the simulated branch on a cell sequence: `round_fwd(x, idx(r), cidx(r))`
(R172, R174). -/
def State.roundAt (s : State) (r : Nat) (x : Cells) : Cells :=
  roundFwd s.build (s.rtkAt (streamIndex s.cfg r)) (constantIndex s.build s.cfg r) x

/-- Inverse round `r` (R173, R175). -/
def State.roundInvAt (s : State) (r : Nat) (x : Cells) : Cells :=
  roundInv s.build (s.rtkAt (streamIndex s.cfg r)) (constantIndex s.build s.cfg r) x

/-- Rounds 0 to n-1 in rising order (R176). -/
def State.encRounds (s : State) : Nat → Cells → Cells
  | 0, x => x
  | n + 1, x => s.roundAt n (s.encRounds n x)

/-- Inverse rounds n-1 down to 0 (R177). -/
def State.decRounds (s : State) : Nat → Cells → Cells
  | 0, x => x
  | n + 1, x => s.decRounds n (s.roundInvAt n x)

/-- The checks of ROUND and IROUND, RANGE before SCHED_SHORT (R174, R175, 60_exceptions.md R204). -/
def checkRound (r : Nat) (s : State) : Except ErrCode Unit :=
  if r ≥ s.cfg.r.toNat then .error .range
  else if streamIndex s.cfg r ≥ s.rtkLen then .error .schedShort
  else .ok ()

/-- The check of ENC and DEC: the stream holds R + R0 entries (R176, R177). -/
def checkEngine (s : State) : Except ErrCode Unit :=
  if s.rtkLen < s.cfg.r.toNat + s.cfg.r0.toNat then .error .schedShort else .ok ()

/-- ROUND r (R174). -/
def execRound (r : BitVec 6) (s : State) : Host.Outcome State Fault Refusal :=
  finishWrite s ((checkRound (imm6 r) s).map fun _ => s.withSt (s.roundAt (imm6 r) s.st))

/-- IROUND r (R175). -/
def execIround (r : BitVec 6) (s : State) : Host.Outcome State Fault Refusal :=
  finishWrite s ((checkRound (imm6 r) s).map fun _ => s.withSt (s.roundInvAt (imm6 r) s.st))

/-- ENC (R176). -/
def execEnc (s : State) : Host.Outcome State Fault Refusal :=
  finishWrite s ((checkEngine s).map fun _ => s.withSt (s.encRounds s.cfg.r.toNat s.st))

/-- DEC (R177). -/
def execDec (s : State) : Host.Outcome State Fault Refusal :=
  finishWrite s ((checkEngine s).map fun _ => s.withSt (s.decRounds s.cfg.r.toNat s.st))

end Sys2Proof.Machine
end

