-- ==== Sys2Proof/Machine/Bus.lean ====
section
/-! DEFINITION. The bus transactions RD and WR (spec/20_memory.md R52, R53). -/

namespace Sys2Proof.Machine

open Sys2Proof

/-- `RD a` (20_memory.md R52): the word goes to the host; no register changes. -/
def execRd (a : Addr) (s : State) : Host.Outcome State Fault Refusal :=
  .next (s.respond (busRead s a))

/-- `execute` of a decoded command (30_encoding.md R71). The decoder of command words never answers RD
or WR, and a word that is no command raises ILLEGAL_CMD. -/
def executeCommand (i : Instr) (s : State) : Host.Outcome State Fault Refusal :=
  match i with
  | .rd _ => finishWrite s (.error .illegalCmd)
  | .wr _ _ => finishWrite s (.error .illegalCmd)
  | .nop => execNop s
  | .sub => execSub s
  | .isub => execIsub s
  | .perm => execPerm s
  | .iperm => execIperm s
  | .mix => execMix s
  | .imix => execImix s
  | .addc k => execAddc k s
  | .addtk k => execAddtk k s
  | .tkupd => execTkupd s
  | .tkgen n => execTkgen n s
  | .round r => execRound r s
  | .iround r => execIround r s
  | .enc => execEnc s
  | .dec => execDec s

/-- A write of `v` to CMD: `execute(decode(v))` (20_memory.md R53, 30_encoding.md R71). -/
def writeCmd (v : Word64) (s : State) : Host.Outcome State Fault Refusal :=
  match decodeCommand v with
  | .ok i => executeCommand i s
  | .error _ => finishWrite s (.error .illegalCmd)

/-- A write of `v` to CFG: validated, refused when illegal (10_state.md R25, R26). -/
def writeCfg (v : Word64) (s : State) : Host.Outcome State Fault Refusal :=
  finishWrite s
    (if CfgLegal s.build.nMax (cfgOfWord v) then .ok (s.withCfg (cfgOfWord v))
     else .error .cfgInvalid)

/-- `WR a, v` (20_memory.md R53, R61). A write to STATUS leaves ERR alone (10_state.md R28). -/
def execWr (a : Addr) (v : Word64) (s : State) : Host.Outcome State Fault Refusal :=
  match regAt s.build.nMax a with
  | .st => finishWrite s (.ok (s.withSt (unpack16 v)))
  | .tk1 => finishWrite s (.ok (s.withTk1 (unpack16 v)))
  | .tk2 => finishWrite s (.ok (s.withTk2 (unpack16 v)))
  | .tk3 => finishWrite s (.ok (s.withTk3 (unpack16 v)))
  | .cfg => writeCfg v s
  | .cmd => writeCmd v s
  | .status => .next (s.withStatus (writeStatus v s.status))
  | .rtkLen => finishWrite s (.error .roWrite)
  | .hwcfg => finishWrite s (.error .roWrite)
  | .rtk _ => finishWrite s (.error .roWrite)
  | .unmapped => finishWrite s (.error .badAddr)

end Sys2Proof.Machine
end

