-- ==== Sys2Proof/Machine/Dispatch.lean ====
section
/-! DEFINITION. One arm per instruction, each a call of its meaning. -/

namespace Sys2Proof.Machine

open Sys2Proof

def exec (i : Instr) (s : State) : Host.Outcome State Fault Refusal :=
  match i with
  | .rd a => Sys2Proof.Machine.execRd a s
  | .wr a v => Sys2Proof.Machine.execWr a v s
  | .nop => Sys2Proof.Machine.execNop s
  | .sub => Sys2Proof.Machine.execSub s
  | .isub => Sys2Proof.Machine.execIsub s
  | .perm => Sys2Proof.Machine.execPerm s
  | .iperm => Sys2Proof.Machine.execIperm s
  | .mix => Sys2Proof.Machine.execMix s
  | .imix => Sys2Proof.Machine.execImix s
  | .addc k => Sys2Proof.Machine.execAddc k s
  | .addtk k => Sys2Proof.Machine.execAddtk k s
  | .tkupd => Sys2Proof.Machine.execTkupd s
  | .tkgen n => Sys2Proof.Machine.execTkgen n s
  | .round r => Sys2Proof.Machine.execRound r s
  | .iround r => Sys2Proof.Machine.execIround r s
  | .enc => Sys2Proof.Machine.execEnc s
  | .dec => Sys2Proof.Machine.execDec s

end Sys2Proof.Machine
end

