-- ==== Sys2Proof/Machine/Events.lean ====
section
/-! DEFINITION. Taking one event of the host: a bus transaction or a reset
(spec/20_memory.md R58, R59, spec/70_reset_and_hazards.md R230). -/

namespace Sys2Proof.Machine

open Sys2Proof

/-- Reset of a running core: every register at its reset value; the build is not state, and what the
host has yet to issue and has received is the host's (70_reset_and_hazards.md R230; log entry 6). -/
def State.doReset (s : State) : State :=
  { State.resetOf s.build with pending := s.pending, responses := s.responses }

/-- One event on a state it has been taken from. A transaction is decoded and executed to completion
(20_memory.md R58); a reset during one abandons it (70_reset_and_hazards.md R230). -/
def takeEvent (e : HostEvent) (s : State) : Host.Outcome State Fault Refusal :=
  match e with
  | .transaction tx => exec (decode tx) s
  | .reset => .next s.doReset
  | .resetDuring _ => .next s.doReset

/-- The next event in issue order (20_memory.md R59); with none, the core is idle and holds its state
(60_exceptions.md R212). -/
def takeNextEvent (s : State) : Host.Outcome State Fault Refusal :=
  match s.pending with
  | [] => .next s
  | e :: rest => takeEvent e (s.withPending rest)

end Sys2Proof.Machine
end

