-- ==== Sys2Proof/Machine/Step.lean ====
section
/-! DEFINITION. One step of the machine, and placing an instruction where the next step finds it. -/

namespace Sys2Proof.Machine

open Sys2Proof

/-- One step: the next event of the host, completely (20_memory.md R58, R59). -/
def step (s : State) : Host.Outcome State Fault Refusal := takeNextEvent s

/-- `s` with the transaction of an opcode-table word as the host's next one (log entries 4 and 10). -/
def State.withFetchWord (s : State) (nbits w : Nat) : State :=
  s.withPending (.transaction (tableTx nbits w) :: s.pending)

end Sys2Proof.Machine
end

