-- ==== Sys2Proof/Machine/Assembler.lean ====
section
/-! DEFINITION. The host's assembly language: from a line of text to the bus transactions it stands for
(spec/30_encoding.md R78, R79). The machine does not use it. -/

namespace Sys2Proof.Machine

open Sys2Proof

/-- A register as an assembly line names it (30_encoding.md R78). -/
inductive RegName where
  | st
  | tk1
  | tk2
  | tk3
  | cfg
  | cmd
  | status
  | rtkLen
  | hwcfg
  | rtk (k : Nat)
  | numeric (a : Addr)
deriving DecidableEq, Repr

/-- `addr(reg)` in a core of stream depth `nMax` (20_memory.md R51); RTK[k] names an entry that exists. -/
def regAddr (nMax : Nat) : RegName → Option Addr
  | .st => some 0x00
  | .tk1 => some 0x01
  | .tk2 => some 0x02
  | .tk3 => some 0x03
  | .cfg => some 0x04
  | .cmd => some 0x05
  | .status => some 0x06
  | .rtkLen => some 0x07
  | .hwcfg => some 0x08
  | .rtk k => if k < nMax then some (BitVec.ofNat 8 (0x40 + k)) else none
  | .numeric a => some a

/-- One assembly line: a transaction, a command line, or a pseudo-instruction (30_encoding.md R78, R79). -/
inductive AsmLine where
  | rd (reg : RegName)
  | wr (reg : RegName) (value : Word64)
  | command (op : BitVec 4) (imm : Nat)
  | ldst (s : Cells)
  | ldtk (a b c : Cells)
  | setcfg (r ri r0 : Nat)
  | clrsticky
  | rndman (k c : Nat)
  | irndman (k c : Nat)
deriving DecidableEq, Repr

/-- `BusRead` of an address. -/
def readTx (a : Addr) : BusTx := { we := false, addr := a, data := 0 }

/-- `BusWrite` of a word to an address. -/
def writeTx (a : Addr) (v : Word64) : BusTx := { we := true, addr := a, data := v }

/-- A command line: `WR CMD, (OP << 12) | imm`; an immediate outside 0 to 63 is refused (R78). -/
def commandLine (op : BitVec 4) (imm : Nat) : Option BusTx :=
  if imm ≤ 63 then some (commandTx op (BitVec.ofNat 6 imm)) else none

/-- RNDMAN k, c: SUB, ADDC c, ADDTK k, PERM, MIX (R79). -/
def roundByHand (k c : Nat) : Option (List BusTx) := do
  let addc ← commandLine 0x7 c
  let addtk ← commandLine 0x8 k
  return [commandTx 0x1 0, addc, addtk, commandTx 0x3 0, commandTx 0x5 0]

/-- IRNDMAN k, c: IMIX, IPERM, ADDTK k, ADDC c, ISUB (R79). -/
def inverseRoundByHand (k c : Nat) : Option (List BusTx) := do
  let addtk ← commandLine 0x8 k
  let addc ← commandLine 0x7 c
  return [commandTx 0x6 0, commandTx 0x4 0, addtk, addc, commandTx 0x2 0]

/-- The bus transactions of an assembly line (30_encoding.md R78, R79). -/
def assemble (nMax : Nat) : AsmLine → Option (List BusTx)
  | .rd reg => (regAddr nMax reg).map fun a => [readTx a]
  | .wr reg v => (regAddr nMax reg).map fun a => [writeTx a v]
  | .command op imm => (commandLine op imm).map fun tx => [tx]
  | .ldst s => some [writeTx 0x00 (pack16 s)]
  | .ldtk a b c => some [writeTx 0x01 (pack16 a), writeTx 0x02 (pack16 b), writeTx 0x03 (pack16 c)]
  | .setcfg r ri r0 => some [writeTx 0x04 (BitVec.ofNat 64 ((r0 <<< 16) ||| (ri <<< 8) ||| r))]
  | .clrsticky => some [writeTx 0x06 0x100]
  | .rndman k c => roundByHand k c
  | .irndman k c => inverseRoundByHand k c

/-- The value of a digit character. -/
def digitValue (c : Char) : Option Nat :=
  let n := c.toNat
  if 48 ≤ n ∧ n ≤ 57 then some (n - 48)
  else if 65 ≤ n ∧ n ≤ 70 then some (n - 55)
  else if 97 ≤ n ∧ n ≤ 102 then some (n - 87)
  else none

/-- A run of digits after the value read so far; `_` may stand before a digit (R78). -/
def readDigits (base : Nat) : Nat → List Char → Option Nat
  | acc, [] => some acc
  | acc, c :: rest =>
    if c = '_' then
      if rest.isEmpty then none else readDigits base acc rest
    else
      match digitValue c with
      | some d => if d < base then readDigits base (acc * base + d) rest else none
      | none => none

/-- A number in a base: digits, the first of them no `_`. -/
def numberIn (base : Nat) (cs : List Char) : Option Nat :=
  match cs with
  | [] => none
  | c :: _ => if c = '_' then none else readDigits base 0 cs

/-- The digits after an `0x` prefix, if there is one. -/
def afterHexPrefix : List Char → Option (List Char)
  | '0' :: 'x' :: rest => some rest
  | '0' :: 'X' :: rest => some rest
  | _ => none

/-- A hexadecimal number, with or without its prefix (R78; log entry 9). -/
def hexNumber (cs : List Char) : Option Nat := numberIn 16 ((afterHexPrefix cs).getD cs)

/-- A decimal number, or a hexadecimal one with its prefix (R78; log entry 9). -/
def anyNumber (cs : List Char) : Option Nat :=
  match afterHexPrefix cs with
  | some rest => numberIn 16 rest
  | none => numberIn 10 cs

/-- A 64-bit hexadecimal value (R78). -/
def valueOf (cs : List Char) : Option Word64 :=
  (hexNumber cs).bind fun n => if n < 2 ^ 64 then some (BitVec.ofNat 64 n) else none

/-- A register name (R78). -/
def regNameOf (cs : List Char) : Option RegName :=
  match cs with
  | ['S', 'T'] => some .st
  | ['T', 'K', '1'] => some .tk1
  | ['T', 'K', '2'] => some .tk2
  | ['T', 'K', '3'] => some .tk3
  | ['C', 'F', 'G'] => some .cfg
  | ['C', 'M', 'D'] => some .cmd
  | ['S', 'T', 'A', 'T', 'U', 'S'] => some .status
  | ['R', 'T', 'K', '_', 'L', 'E', 'N'] => some .rtkLen
  | ['H', 'W', 'C', 'F', 'G'] => some .hwcfg
  | 'R' :: 'T' :: 'K' :: '[' :: rest =>
    if rest.getLast? = some ']' then (anyNumber rest.dropLast).map .rtk else none
  | '@' :: rest =>
    (hexNumber rest).bind fun n => if n < 256 then some (.numeric (BitVec.ofNat 8 n)) else none
  | _ => none

/-- The opcode of a command mnemonic (30_encoding.md R73). -/
def opcodeOf (cs : List Char) : Option (BitVec 4) :=
  match cs with
  | ['N', 'O', 'P'] => some 0x0
  | ['S', 'U', 'B'] => some 0x1
  | ['I', 'S', 'U', 'B'] => some 0x2
  | ['P', 'E', 'R', 'M'] => some 0x3
  | ['I', 'P', 'E', 'R', 'M'] => some 0x4
  | ['M', 'I', 'X'] => some 0x5
  | ['I', 'M', 'I', 'X'] => some 0x6
  | ['A', 'D', 'D', 'C'] => some 0x7
  | ['A', 'D', 'D', 'T', 'K'] => some 0x8
  | ['T', 'K', 'U', 'P', 'D'] => some 0x9
  | ['T', 'K', 'G', 'E', 'N'] => some 0xA
  | ['R', 'O', 'U', 'N', 'D'] => some 0xB
  | ['I', 'R', 'O', 'U', 'N', 'D'] => some 0xC
  | ['E', 'N', 'C'] => some 0xD
  | ['D', 'E', 'C'] => some 0xE
  | _ => none

/-- The word being read, if it holds a character. -/
def flushToken (cur : List Char) : List (List Char) :=
  if cur.isEmpty then [] else [cur.reverse]

/-- The words of a line up to its comment; a comma is a word of its own (R78; log entry 9). -/
def tokens : List Char → List Char → List (List Char)
  | cur, [] => flushToken cur
  | cur, c :: rest =>
    if c = ';' then flushToken cur
    else if c = ',' then flushToken cur ++ [','] :: tokens [] rest
    else if c = ' ' ∨ c = '\t' then flushToken cur ++ tokens [] rest
    else tokens (c :: cur) rest

/-- The line that a list of words is (R78, R79); an absent immediate is 0 (log entry 9). -/
def parseTokens (ts : List (List Char)) : Option AsmLine :=
  match ts with
  | [['R', 'D'], reg] => (regNameOf reg).map .rd
  | [['W', 'R'], reg, [','], v] => do return .wr (← regNameOf reg) (← valueOf v)
  | [['L', 'D', 'S', 'T'], s] => (valueOf s).map fun v => .ldst (unpack16 v)
  | [['L', 'D', 'T', 'K'], a, [','], b, [','], c] => do
    return .ldtk (unpack16 (← valueOf a)) (unpack16 (← valueOf b)) (unpack16 (← valueOf c))
  | [['S', 'E', 'T', 'C', 'F', 'G'], r, [','], ri, [','], r0] => do
    return .setcfg (← anyNumber r) (← anyNumber ri) (← anyNumber r0)
  | [['C', 'L', 'R', 'S', 'T', 'I', 'C', 'K', 'Y']] => some .clrsticky
  | [['R', 'N', 'D', 'M', 'A', 'N'], k, [','], c] => do
    return .rndman (← anyNumber k) (← anyNumber c)
  | [['I', 'R', 'N', 'D', 'M', 'A', 'N'], k, [','], c] => do
    return .irndman (← anyNumber k) (← anyNumber c)
  | [mnemonic] => (opcodeOf mnemonic).map fun op => .command op 0
  | [mnemonic, imm] => do return .command (← opcodeOf mnemonic) (← anyNumber imm)
  | _ => none

/-- The bus transactions of a line of assembly text; a line with no words has none
(30_encoding.md R78, R79). -/
def assembleText (nMax : Nat) (line : List Char) : Option (List BusTx) :=
  match tokens [] line with
  | [] => some []
  | t :: ts => (parseTokens (t :: ts)).bind (assemble nMax)

end Sys2Proof.Machine
end

