-- ==== Sys2Proof/Safety.lean ====
section
/-! DEFINITION. The terms that statements use: the states a core can be in, the registers' reset values,
commands, and a sequence of instructions. -/

namespace Sys2Proof.Machine

open Sys2Proof

/-- The stream in its canonical form: N_MAX entries, RTK_LEN of them valid, and every entry at or beyond
RTK_LEN zero (10_state.md R23, R24). -/
abbrev StreamCanonical (s : State) : Prop :=
  s.rtk.length = s.build.nMax ∧ s.rtkLen ≤ s.build.nMax ∧
    s.rtk.drop s.rtkLen = List.replicate (s.build.nMax - s.rtkLen) zeroTweakey

/-- The invariant: a legal build (00_scope.md R5 to R12), the stream canonical, CFG legal
(10_state.md R26), and ERR one of the codes 0 to 6 (60_exceptions.md R200). -/
abbrev Inv (s : State) : Prop :=
  LegalBuild s.build ∧ StreamCanonical s ∧ CfgLegal s.build.nMax s.cfg ∧ s.status.err.toNat ≤ 6

/-- Every register at the value R230 gives it (70_reset_and_hazards.md). -/
abbrev RegistersReset (s : State) : Prop :=
  (∀ i : Fin 16, s.st[i] = 0 ∧ s.tk1[i] = 0 ∧ s.tk2[i] = 0 ∧ s.tk3[i] = 0) ∧
  s.rtk.length = s.build.nMax ∧ (∀ t ∈ s.rtk, ∀ i : Fin 8, t[i] = 0) ∧
  s.rtkLen = 0 ∧ s.cfg.r = 0 ∧ s.cfg.ri = 0 ∧ s.cfg.r0 = 0 ∧
  s.status.err = 0 ∧ s.status.sticky = false

/-- The fifteen commands (30_encoding.md R73): every instruction but the two plain bus transactions. -/
def isCommand : Instr → Bool
  | .rd _ => false
  | .wr _ _ => false
  | .nop => true
  | .sub => true
  | .isub => true
  | .perm => true
  | .iperm => true
  | .mix => true
  | .imix => true
  | .addc _ => true
  | .addtk _ => true
  | .tkupd => true
  | .tkgen _ => true
  | .round _ => true
  | .iround _ => true
  | .enc => true
  | .dec => true

/-- The word `(OP << 12) | IMM6` of a command without operand, written to CMD, is the command, and with
a non-zero IMM6 it raises ILLEGAL_CMD and has no other effect (30_encoding.md R73, R74). -/
abbrev BareCommand (op : BitVec 4) (i : Instr) (s : State) : Prop :=
  exec (.wr 0x05 (commandWord op 0)) s = exec i s ∧
    ∀ k : BitVec 6, k ≠ 0 →
      exec (.wr 0x05 (commandWord op k)) s = .next { s with status := { err := 1, sticky := true } }

/-- The word `(OP << 12) | IMM6` of a command with operand, written to CMD, is the command on the operand
IMM6 (30_encoding.md R72, R73). -/
abbrev ImmediateCommand (op : BitVec 4) (i : BitVec 6 → Instr) (s : State) : Prop :=
  ∀ k : BitVec 6, exec (.wr 0x05 (commandWord op k)) s = exec (i k) s

/-- Instructions executed one after the other, in issue order (20_memory.md R59). -/
def execAll : List Instr → State → Host.Outcome State Fault Refusal
  | [], s => .next s
  | i :: rest, s =>
    match exec i s with
    | .next t => execAll rest t
    | .fault r => .fault r
    | .refused r => .refused r

end Sys2Proof.Machine
end

