-- ==== Sys2Proof/Certificates/Slice0/Obligations.lean ====
section
/-! DEFINITION. The statements for the provers, each after a rule of spec/. The state equations
`t = { s with … }` say the frame: every register, the build, and the host's side not named there are
unchanged. Every statement holds for every build, not only the default one, unless it names the default. -/

open Sys2Proof Sys2Proof.Machine

/-! ### Reset, steps, the host's side -/

/-- R230: after reset, of any build and from any state, every register holds its reset value and HWCFG
reads as it did. -/
def Obligations.ResetPutsEveryRegisterAtItsValue : Prop :=
  (∀ b : Build, RegistersReset (State.resetOf b) ∧ (State.resetOf b).build = b ∧
    busRead (State.resetOf b) 0x08 = hwcfgWord b) ∧
  ∀ s : State, RegistersReset s.doReset ∧ busRead s.doReset 0x08 = busRead s 0x08

/-- Derived (70_reset_and_hazards.md section 1): a step that takes a reset, between transactions or during
one, which it abandons, leaves the reset registers. That a reset reaches the core as an event of `pending`,
and leaves the rest of `pending` and `responses` to the host, is the model's choice (log entry 6). -/
def Obligations.ResetEventResetsTheCore : Prop :=
  ∀ (s : State) (e : HostEvent) (rest : List HostEvent), s.pending = e :: rest →
    (e = .reset ∨ ∃ tx, e = .resetDuring tx) →
    ∃ t, step s = .next t ∧ RegistersReset t ∧ t.build = s.build ∧ t.pending = rest ∧
      t.responses = s.responses

/-- Derived (70_reset_and_hazards.md section 1, an inference of the spec): right after reset ENC and DEC are
the identity on ST, every ADDTK fails with SCHED_SHORT, every ROUND and IROUND with RANGE. -/
def Obligations.AfterResetOnlyEmptyEngineRunsSucceed : Prop :=
  ∀ (b : Build) (k : BitVec 6),
    let s := State.resetOf b
    exec .enc s = .next s ∧ exec .dec s = .next s ∧
    exec (.addtk k) s = .next { s with status := { err := 3, sticky := true } } ∧
    exec (.round k) s = .next { s with status := { err := 2, sticky := true } } ∧
    exec (.iround k) s = .next { s with status := { err := 2, sticky := true } }

/-- Derived (60_exceptions.md section 6): with no transaction pending the core holds its state. That
"between transactions" is an empty `pending` is log entry 4. -/
def Obligations.IdleCoreHoldsItsState : Prop :=
  ∀ s : State, s.pending = [] → step s = .next s

/-- A step at a pending transaction executes what the transaction decodes to, the transaction taken from
`pending`; so does a step at the transaction of a well-formed instruction, and at an opcode-table word that
`withFetchWord` placed. Derived (20_memory.md sections 4 and 5); `pending` is log entry 4. -/
def Obligations.StepRunsTheDecodedTransaction : Prop :=
  (∀ (s : State) (tx : BusTx) (rest : List HostEvent), s.pending = .transaction tx :: rest →
    step s = exec (decode tx) { s with pending := rest }) ∧
  (∀ (s : State) (i : Instr) (rest : List HostEvent), i.wellFormed = true →
    s.pending = .transaction (encode i) :: rest → step s = exec i { s with pending := rest }) ∧
  (∀ (s : State) (nbits w : Nat) (i : Instr), decodeTableWord nbits w = some i →
    step (s.withFetchWord nbits w) = exec i s)

/-- Derived (20_memory.md section 5): a host program is a sequence of state transformers applied in program
order. Running the pending transactions gives what their instructions give one after the other. -/
def Obligations.HostProgramRunsInIssueOrder : Prop :=
  ∀ (txs : List BusTx) (s : State), s.pending = txs.map .transaction →
    ∃ t, execAll (txs.map decode) { s with pending := [] } = .next t ∧
      Host.Core.run Sys2Proof.core txs.length s = .next t

/-- Derived (70_reset_and_hazards.md section 4, an inference of the spec): no transaction hangs. Every
instruction answers a next state from every state, and so does every step. -/
def Obligations.EveryTransactionCompletes : Prop :=
  (∀ (i : Instr) (s : State), ∃ t, exec i s = .next t) ∧ ∀ s : State, ∃ t, step s = .next t

/-! ### Invariants -/

/-- The reset state of every legal build meets the invariant, and the default build is a legal one (that the
machine's own `reset` takes the default build is log entries 1 to 3). -/
def Obligations.ResetMeetsTheInvariant : Prop :=
  (∀ b : Build, LegalBuild b → Inv (State.resetOf b)) ∧ LegalBuild defaultBuild ∧ Inv State.reset

/-- Every step keeps the invariant: the build legal, the stream in its canonical form with every entry at or
beyond RTK_LEN zero, CFG legal, ERR a code 0 to 6. Derived (10_state.md sections 2 and 3). -/
def Obligations.EveryStepKeepsTheInvariant : Prop :=
  ∀ s t : State, Inv s → step s = .next t → Inv t

/-- Derived (10_state.md sections 1 to 3): only the named instructions write each register but STATUS. ST:
the twelve state commands and WR ST. TK1 to TK3: TKUPD and their own WR. RTK and RTK_LEN: TKGEN. CFG: WR
CFG. (STATUS is EveryWriteAssignsErrOnce and StickyIsClearedOnlyByStatusWriteOrReset; the plain WR spelling
of a command word is CmdWriteOfACommandWordIsTheCommand.) The clauses on `build`, `pending` and `responses`,
that no instruction writes the first two and only RD the third, are about the model's own fields, its
choice (log entries 1, 4 and 5). -/
def Obligations.OnlyNamedInstructionsWriteEachRegister : Prop :=
  ∀ (i : Instr) (s t : State), i.wellFormed = true → exec i s = .next t →
    (t.st ≠ s.st →
      (∃ v, i = .wr 0x00 v) ∨
        (isCommand i = true ∧ i ≠ .nop ∧ i ≠ .tkupd ∧ ∀ n, i ≠ .tkgen n)) ∧
    (t.tk1 ≠ s.tk1 → i = .tkupd ∨ ∃ v, i = .wr 0x01 v) ∧
    (t.tk2 ≠ s.tk2 → i = .tkupd ∨ ∃ v, i = .wr 0x02 v) ∧
    (t.tk3 ≠ s.tk3 → i = .tkupd ∨ ∃ v, i = .wr 0x03 v) ∧
    (t.rtk ≠ s.rtk ∨ t.rtkLen ≠ s.rtkLen → ∃ n, i = .tkgen n) ∧
    (t.cfg ≠ s.cfg → ∃ v, i = .wr 0x04 v) ∧
    (t.responses ≠ s.responses → ∃ a, i = .rd a) ∧
    t.build = s.build ∧ t.pending = s.pending

/-! ### Encoding -/

/-- Decoding the encoding of a well-formed instruction gives it back, through its transaction and through
the notional 73-bit word, with every operand at every value. Derived (30_encoding.md sections 1 to 3). -/
def Obligations.DecodeOfEncodeIsTheInstruction : Prop :=
  ∀ i : Instr, i.wellFormed = true →
    decode (encode i) = i ∧ decode (BusTx.ofWord (BusTx.toWord (encode i))) = i

/-- Encoding what a transaction decodes to gives the transaction back, a read's ignored data as 0, and the
decoder answers well-formed instructions only. Derived (30_encoding.md sections 1 to 3). -/
def Obligations.EncodeOfDecodeIsTheTransaction : Prop :=
  ∀ tx : BusTx, (decode tx).wellFormed = true ∧
    (tx.we = true → encode (decode tx) = tx) ∧
    (tx.we = false → encode (decode tx) = { tx with data := 0 })

/-- A word written to CMD is decoded to the command whose word it is exactly when it is a command word;
otherwise it is refused by the first condition it breaks. Derived (30_encoding.md sections 1 to 4). -/
def Obligations.CommandDecoderAnswersExactlyCommandWords : Prop :=
  ∀ v : Word64,
    (isCommandWord v = true →
      ∃ i, decodeCommand v = .ok i ∧ isCommand i = true ∧ encode i = { we := true, addr := 0x05, data := v }) ∧
    (v.extractLsb' 16 48 ≠ 0 ∨ v.extractLsb' 6 6 ≠ 0 → decodeCommand v = .error .reservedBits) ∧
    (v.extractLsb' 16 48 = 0 → v.extractLsb' 6 6 = 0 → v.extractLsb' 12 4 = 0xF →
      decodeCommand v = .error .reservedOpcode) ∧
    (v.extractLsb' 16 48 = 0 → v.extractLsb' 6 6 = 0 → v.extractLsb' 12 4 ≠ 0xF →
      isCommandWord v = false → decodeCommand v = .error .strayOperand)

/-- A word for each format, written out from 30_encoding.md R70 and R73, decodes to its instruction: a
sanity statement. -/
def Obligations.WordsOfTheSpecDecode : Prop :=
  decodeTableWord 80 0x0_41_0000000000000000 = some (.rd 0x41) ∧
  decodeTableWord 80 0x1_00_530C61D35E8663C3 = some (.wr 0x00 0x530C61D35E8663C3) ∧
  decodeTableWord 64 0x1000 = some .sub ∧ decodeTableWord 64 0x703D = some (.addc 61) ∧
  decodeTableWord 64 0xA029 = some (.tkgen 41) ∧ decodeTableWord 64 0xC007 = some (.iround 7) ∧
  decodeTableWord 64 0xE000 = some .dec ∧ decodeTableWord 64 0xF000 = none ∧
  decodeTableWord 64 0x1001 = none ∧ decodeTableWord 64 0x1040 = none

/-- R74, R75: a command word with OP = 0xF, or with IMM6 ≠ 0 on a command that takes no operand, and a word
with a reserved bit set, raise ILLEGAL_CMD, whatever else they hold, with no other effect. -/
def Obligations.IllegalCommandWordsRaiseOnly : Prop :=
  ∀ (v : Word64) (s : State),
    (v.extractLsb' 12 4 = 0xF ∨
      (v.extractLsb' 12 4 ∈ [0x0, 0x1, 0x2, 0x3, 0x4, 0x5, 0x6, 0x9, 0xD, 0xE] ∧ v.extractLsb' 0 6 ≠ 0) ∨
      v.extractLsb' 16 48 ≠ 0 ∨ v.extractLsb' 6 6 ≠ 0) →
    exec (.wr 0x05 v) s = .next { s with status := { err := 1, sticky := true } }

/-! ### Bus transactions -/

/-- R55, R64, and the words of 20_memory.md sections 2 and 6: the word that a read of each address returns,
field by field. It says nothing of what executing RD does: that RD changes no register is
ReadAnswersTheHostAndChangesNoRegister. -/
def Obligations.ReadReturnsTheRegistersWord : Prop :=
  ∀ (a : Addr) (s : State), let w := busRead s a
    (a = 0x00 → ∀ i : Fin 16, w.extractLsb' (60 - 4 * i.val) 4 = s.st[i]) ∧
    (a = 0x01 → ∀ i : Fin 16, w.extractLsb' (60 - 4 * i.val) 4 = s.tk1[i]) ∧
    (a = 0x02 → ∀ i : Fin 16, w.extractLsb' (60 - 4 * i.val) 4 = s.tk2[i]) ∧
    (a = 0x03 → ∀ i : Fin 16, w.extractLsb' (60 - 4 * i.val) 4 = s.tk3[i]) ∧
    (a = 0x04 → w.extractLsb' 0 6 = s.cfg.r ∧ w.extractLsb' 6 2 = 0 ∧ w.extractLsb' 8 6 = s.cfg.ri ∧
      w.extractLsb' 14 2 = 0 ∧ w.extractLsb' 16 6 = s.cfg.r0 ∧ w.extractLsb' 22 42 = 0) ∧
    (a = 0x05 → w = 0) ∧
    (a = 0x06 → w.extractLsb' 0 4 = s.status.err ∧ w.extractLsb' 4 4 = 0 ∧
      w.getLsbD 8 = s.status.sticky ∧ w.extractLsb' 9 55 = 0) ∧
    (a = 0x07 → w = BitVec.ofNat 64 s.rtkLen) ∧
    (a = 0x08 → w.extractLsb' 0 6 = BitVec.ofNat 6 s.build.nMax ∧ w.extractLsb' 6 2 = 0 ∧
      (w.getLsbD 8 = true ↔ s.build.rcMode = .branch) ∧ w.extractLsb' 9 55 = 0) ∧
    (∀ k, a.toNat = 0x40 + k → k < s.build.nMax →
      w.extractLsb' 32 32 = 0 ∧
        ∀ i : Fin 8, w.extractLsb' (28 - 4 * i.val) 4 = (s.rtk.getD k zeroTweakey)[i]) ∧
    (0x09 ≤ a.toNat → (a.toNat < 0x40 ∨ 0x40 + s.build.nMax ≤ a.toNat) → w = 0)

/-- Derived (20_memory.md section 2): RD completes, hands the word to the host and changes no register.
That the host's received words stand in `responses` is the model's choice (log entry 5). -/
def Obligations.ReadAnswersTheHostAndChangesNoRegister : Prop :=
  ∀ (a : Addr) (s : State), exec (.rd a) s = .next { s with responses := s.responses ++ [busRead s a] }

/-- Derived (20_memory.md section 6, an inference of the spec): an entry at or beyond RTK_LEN reads 0. -/
def Obligations.EntriesBeyondTheStreamReadZero : Prop :=
  ∀ (s : State) (k : Nat), Inv s → s.rtkLen ≤ k → k < s.build.nMax →
    busRead s (BitVec.ofNat 8 (0x40 + k)) = 0

/-- R54, and 20_memory.md section 2 on the four data registers: the written word's cells become the
register's, ERR becomes OK, nothing else changes, and the address then reads as the word written. -/
def Obligations.WriteLoadsADataRegister : Prop :=
  ∀ (v : Word64) (s : State), ∃ x : Cells,
    (∀ i : Fin 16, x[i] = v.extractLsb' (60 - 4 * i.val) 4) ∧
    (let ok := { s.status with err := 0 }
     exec (.wr 0x00 v) s = .next { s with st := x, status := ok } ∧
     exec (.wr 0x01 v) s = .next { s with tk1 := x, status := ok } ∧
     exec (.wr 0x02 v) s = .next { s with tk2 := x, status := ok } ∧
     exec (.wr 0x03 v) s = .next { s with tk3 := x, status := ok } ∧
     busRead { s with st := x, status := ok } 0x00 = v ∧ busRead { s with tk1 := x, status := ok } 0x01 = v ∧
     busRead { s with tk2 := x, status := ok } 0x02 = v ∧ busRead { s with tk3 := x, status := ok } 0x03 = v)

/-- R26: a CFG write is legal exactly when RI ≤ R and R + R0 ≤ N_MAX; a legal one stores the three fields
and sets ERR to OK, an illegal one leaves CFG unchanged and raises CFG_INVALID. (That CFG is then always
legal is part of EveryStepKeepsTheInvariant.) -/
def Obligations.CfgWriteIsValidated : Prop :=
  ∀ (v : Word64) (s : State),
    let r := v.extractLsb' 0 6
    let ri := v.extractLsb' 8 6
    let r0 := v.extractLsb' 16 6
    (ri.toNat ≤ r.toNat ∧ r.toNat + r0.toNat ≤ s.build.nMax →
      exec (.wr 0x04 v) s =
        .next { s with cfg := { r := r, ri := ri, r0 := r0 }, status := { s.status with err := 0 } }) ∧
    (¬(ri.toNat ≤ r.toNat ∧ r.toNat + r0.toNat ≤ s.build.nMax) →
      exec (.wr 0x04 v) s = .next { s with status := { err := 4, sticky := true } })

/-- Derived (10_state.md section 3): a STATUS write clears STICKY by bit 8 and changes nothing else. -/
def Obligations.StatusWriteClearsStickyByBitEight : Prop :=
  ∀ (v : Word64) (s : State),
    exec (.wr 0x06 v) s =
      .next { s with status := { s.status with sticky := s.status.sticky && !v.getLsbD 8 } }

/-- R61: a write to RTK_LEN, HWCFG or an RTK entry raises RO_WRITE, a write to an unmapped address BAD_ADDR,
and no register other than STATUS changes. -/
def Obligations.ReadOnlyAndUnmappedWritesRaiseOnly : Prop :=
  ∀ (a : Addr) (v : Word64) (s : State),
    (a = 0x07 ∨ a = 0x08 ∨ (0x40 ≤ a.toNat ∧ a.toNat < 0x40 + s.build.nMax) →
      exec (.wr a v) s = .next { s with status := { err := 5, sticky := true } }) ∧
    (0x09 ≤ a.toNat ∧ (a.toNat < 0x40 ∨ 0x40 + s.build.nMax ≤ a.toNat) →
      exec (.wr a v) s = .next { s with status := { err := 6, sticky := true } })

/-- Derived (20_memory.md section 2, 30_encoding.md section 1): writing a command's word to CMD is the
command. -/
def Obligations.CmdWriteOfACommandWordIsTheCommand : Prop :=
  ∀ (i : Instr) (s : State), isCommand i = true → exec (.wr 0x05 (encode i).data) s = exec i s

/-! ### Errors and STATUS -/

/-- R201: every bus write except a write to STATUS ends with one assignment to ERR, OK when it succeeded and
the code of the error it raised otherwise; reads never change STATUS; a write to STATUS changes only STICKY.
-/
def Obligations.EveryWriteAssignsErrOnce : Prop :=
  ∀ (i : Instr) (s : State), ∃ t, exec i s = .next t ∧
    (∀ a, i = .rd a → t.status = s.status) ∧
    (∀ v, i = .wr 0x06 v → ∃ b, t = { s with status := { err := s.status.err, sticky := b } }) ∧
    ((∀ a, i ≠ .rd a) → (∀ v, i ≠ .wr 0x06 v) →
      t.status = { s.status with err := 0 } ∨
      ∃ c : ErrCode, errCode c ≠ 0 ∧ (errCode c).toNat ≤ 6 ∧ t = raiseError c s ∧
        t.status = { err := errCode c, sticky := true })

/-- R202: an error sets ERR and STICKY; of the transactions only a STATUS write with bit 8 = 1 clears
STICKY, and reset does. -/
def Obligations.StickyIsClearedOnlyByStatusWriteOrReset : Prop :=
  (∀ (c : ErrCode) (s : State),
    raiseError c s = { s with status := { err := errCode c, sticky := true } } ∧ errCode c ≠ 0) ∧
  (∀ (i : Instr) (s t : State), exec i s = .next t → s.status.sticky = true →
    (t.status.sticky = false ↔ ∃ v : Word64, i = .wr 0x06 v ∧ v.getLsbD 8 = true)) ∧
  ∀ s : State, s.doReset.status.sticky = false

/-- Derived (60_exceptions.md section 2): a step that clears STICKY took a STATUS write with bit 8 = 1 or a
reset. That these are the first event of `pending` is the model's choice (log entries 4 and 6). -/
def Obligations.StepThatClearsStickyTookStatusWriteOrReset : Prop :=
  ∀ s t : State, step s = .next t → s.status.sticky = true → t.status.sticky = false →
    (∃ v : Word64, ∃ rest, v.getLsbD 8 = true ∧
      s.pending = .transaction { we := true, addr := 0x06, data := v } :: rest) ∨
    (∃ rest, s.pending = .reset :: rest) ∨ ∃ tx rest, s.pending = .resetDuring tx :: rest

/-- R203: a write or command that raises an error changes no register other than ERR and STICKY. -/
def Obligations.FailingWriteChangesOnlyStatus : Prop :=
  ∀ (i : Instr) (s t : State), (∀ a, i ≠ .rd a) → (∀ v, i ≠ .wr 0x06 v) → exec i s = .next t →
    t.status.err ≠ 0 → t = { s with status := { err := t.status.err, sticky := true } }

/-- R204: exactly one code is reported. A word that does not decode is ILLEGAL_CMD before any operand check;
ROUND and IROUND report RANGE before SCHED_SHORT. -/
def Obligations.ErrorsAreReportedByPriority : Prop :=
  ∀ (s : State) (v : Word64) (r : BitVec 6),
    (isCommandWord v = false →
      exec (.wr 0x05 v) s = .next { s with status := { err := 1, sticky := true } }) ∧
    (r.toNat ≥ s.cfg.r.toNat →
      exec (.round r) s = .next { s with status := { err := 2, sticky := true } } ∧
      exec (.iround r) s = .next { s with status := { err := 2, sticky := true } }) ∧
    (r.toNat < s.cfg.r.toNat →
      (if r.toNat < s.cfg.ri.toNat then r.toNat else r.toNat + s.cfg.r0.toNat) ≥ s.rtkLen →
      exec (.round r) s = .next { s with status := { err := 3, sticky := true } } ∧
      exec (.iround r) s = .next { s with status := { err := 3, sticky := true } })

/-! ### Nibble primitives -/

/-- Derived (40_nibble_primitives.md section 2, R105's effect and errors): NOP sets ERR to OK and changes
nothing else; the word 0 is its only word, and any other word with OP = 0 is ILLEGAL_CMD. -/
def Obligations.NopOnlySetsErrOk : Prop :=
  ∀ s : State,
    exec .nop s = .next { s with status := { s.status with err := 0 } } ∧
    exec (.wr 0x05 0) s = exec .nop s ∧
    ∀ v : Word64, v.extractLsb' 12 4 = 0 → v ≠ 0 →
      exec (.wr 0x05 v) s = .next { s with status := { err := 1, sticky := true } }

/-- R106, R107: SUB sends every cell through SBOX, ISUB through its inverse: SBOX of each new cell is the
old one. Their words are 0x1000 and 0x2000, with a non-zero IMM6 illegal. -/
def Obligations.SubAndIsubSubstituteEveryCell : Prop :=
  ∀ s : State, LegalBuild s.build → ∃ x y : Cells,
    exec .sub s = .next { s with st := x, status := { s.status with err := 0 } } ∧
    (∀ i : Fin 16, x[i] = sboxAt s.build s.st[i]) ∧
    exec .isub s = .next { s with st := y, status := { s.status with err := 0 } } ∧
    (∀ i : Fin 16, sboxAt s.build y[i] = s.st[i]) ∧
    BareCommand 0x1 .sub s ∧ BareCommand 0x2 .isub s

/-- R108, R109: PERM gathers, cell i from position P[i]; IPERM undoes it, cell P[i] from position i. Their
words are 0x3000 and 0x4000, with a non-zero IMM6 illegal. -/
def Obligations.PermAndIpermMoveCells : Prop :=
  ∀ s : State, LegalBuild s.build → ∃ x y : Cells,
    exec .perm s = .next { s with st := x, status := { s.status with err := 0 } } ∧
    (∀ i : Fin 16, x[i] = s.st[s.build.perm[i]]) ∧
    exec .iperm s = .next { s with st := y, status := { s.status with err := 0 } } ∧
    (∀ i : Fin 16, y[s.build.perm[i]] = s.st[i]) ∧
    BareCommand 0x3 .perm s ∧ BareCommand 0x4 .iperm s

/-- R110, R111: MIX makes cell j + 4i of column j the XOR of that column's cells that row i of MIXM selects;
IMIX gives the state that MIX sends to the old one. Their words are 0x5000 and 0x6000, with a non-zero IMM6
illegal. -/
def Obligations.MixAndImixWorkPerColumn : Prop :=
  ∀ s : State, LegalBuild s.build → ∃ x y : Cells,
    exec .mix s = .next { s with st := x, status := { s.status with err := 0 } } ∧
    (∀ i j : Fin 4, x[gridCell i j] =
      (List.finRange 4).foldl
        (fun acc m => if s.build.mixm[i][m] then acc ^^^ s.st[gridCell m j] else acc) 0) ∧
    exec .imix s = .next { s with st := y, status := { s.status with err := 0 } } ∧
    (∀ i j : Fin 4, s.st[gridCell i j] =
      (List.finRange 4).foldl
        (fun acc m => if s.build.mixm[i][m] then acc ^^^ y[gridCell m j] else acc) 0) ∧
    BareCommand 0x5 .mix s ∧ BareCommand 0x6 .imix s

/-- R112 (with R103): ADDC k XORs RC[k][3:0] into cell 0, RC[k][5:4] into cell 4, C2 into cell 8, and leaves
every other cell; k above 61 is RANGE. Its words are 0x7000 + k. -/
def Obligations.AddcXorsTheRoundConstant : Prop :=
  ∀ (s : State) (k : BitVec 6),
    (∀ h : k.toNat < 62, ∃ x : Cells,
      exec (.addc k) s = .next { s with st := x, status := { s.status with err := 0 } } ∧
      x[0] = s.st[0] ^^^ s.build.rc[k.toNat].extractLsb' 0 4 ∧
      x[4] = s.st[4] ^^^ (s.build.rc[k.toNat].extractLsb' 4 2).setWidth 4 ∧
      x[8] = s.st[8] ^^^ s.build.c2.setWidth 4 ∧
      ∀ i : Fin 16, i ≠ 0 → i ≠ 4 → i ≠ 8 → x[i] = s.st[i]) ∧
    (62 ≤ k.toNat → exec (.addc k) s = .next { s with status := { err := 2, sticky := true } }) ∧
    ImmediateCommand 0x7 .addc s

/-- R113 (with R104): ADDTK k XORs stream entry k into cells 0 to 7 and leaves cells 8 to 15; k at or beyond
RTK_LEN is SCHED_SHORT. Its words are 0x8000 + k. -/
def Obligations.AddtkXorsTheStreamEntry : Prop :=
  ∀ (s : State) (k : BitVec 6),
    (k.toNat < s.rtkLen → ∃ x : Cells,
      exec (.addtk k) s = .next { s with st := x, status := { s.status with err := 0 } } ∧
      (∀ i : Fin 8, x[i.val] = s.st[i.val] ^^^ (s.rtk.getD k.toNat zeroTweakey)[i]) ∧
      ∀ i : Fin 16, 8 ≤ i.val → x[i] = s.st[i]) ∧
    (s.rtkLen ≤ k.toNat → exec (.addtk k) s = .next { s with status := { err := 3, sticky := true } }) ∧
    ImmediateCommand 0x8 .addtk s

/-- Derived (40_nibble_primitives.md section 3, an inference of the spec): the laws of the family. -/
def Obligations.NibblePrimitivesUndoEachOther : Prop :=
  ∀ (b : Build) (s : Cells) (t : RoundTweakey) (c : Nat), LegalBuild b →
    isubCells b (subCells b s) = s ∧ subCells b (isubCells b s) = s ∧
    unpermuteCells b (permuteCells b s) = s ∧ permuteCells b (unpermuteCells b s) = s ∧
    undiffuse b (diffuse b s) = s ∧ diffuse b (undiffuse b s) = s ∧
    addConstants b c (addConstants b c s) = s ∧ addTweakey t (addTweakey t s) = s

/-! ### Tweakey schedule -/

/-- R140, R141: the two linear-feedback maps, bit by bit. -/
def Obligations.LinearFeedbackMapsBitByBit : Prop :=
  ∀ x : Cell,
    (lfsrA x)[3] = x[2] ∧ (lfsrA x)[2] = x[1] ∧ (lfsrA x)[1] = x[0] ∧ (lfsrA x)[0] = (x[3] ^^ x[2]) ∧
    (lfsrB x)[3] = (x[0] ^^ x[3]) ∧ (lfsrB x)[2] = x[3] ∧ (lfsrB x)[1] = x[2] ∧ (lfsrB x)[0] = x[1]

/-- Derived (41_tweakey_schedule.md section 3, an inference of the spec): the maps are inverses of each
other, linear, and fix only 0, and every non-zero value lies on one cycle of length 15. -/
def Obligations.LinearFeedbackMapsAreInverseAndLinear : Prop :=
  (∀ x : Cell, lfsrB (lfsrA x) = x ∧ lfsrA (lfsrB x) = x ∧ (lfsrA x = x ↔ x = 0) ∧ (lfsrB x = x ↔ x = 0)) ∧
  (∀ x y : Cell, lfsrA (x ^^^ y) = lfsrA x ^^^ lfsrA y ∧ lfsrB (x ^^^ y) = lfsrB x ^^^ lfsrB y) ∧
  ∀ x y : Cell, x ≠ 0 → y ≠ 0 → (∃ n : Fin 15, lfsrA^[n.val] x = y) ∧ ∃ n : Fin 15, lfsrB^[n.val] x = y

/-- R148: TKUPD permutes each word by PT, sends TK2's first 8 cells through map A and TK3's through map B,
and changes nothing else but ERR. Its word is 0x9000, with a non-zero IMM6 illegal. -/
def Obligations.TkupdStepsTheTweakeyWords : Prop :=
  ∀ s : State, ∃ x y z : Cells,
    exec .tkupd s =
      .next { s with tk1 := x, tk2 := y, tk3 := z, status := { s.status with err := 0 } } ∧
    (∀ i : Fin 16, x[i] = s.tk1[s.build.tkPerm[i]] ∧
      (i.val < 8 → y[i] = lfsrA s.tk2[s.build.tkPerm[i]] ∧ z[i] = lfsrB s.tk3[s.build.tkPerm[i]]) ∧
      (8 ≤ i.val → y[i] = s.tk2[s.build.tkPerm[i]] ∧ z[i] = s.tk3[s.build.tkPerm[i]])) ∧
    BareCommand 0x9 .tkupd s

/-- R147: TKGEN N writes entry k < N with the XOR of the first 8 cells of the words after k schedule steps,
clears every later entry, sets RTK_LEN to N and changes nothing else but ERR; N above N_MAX is RANGE. Its
words are 0xA000 + N. -/
def Obligations.TkgenWritesTheStream : Prop :=
  ∀ (s : State) (n : BitVec 6),
    (n.toNat ≤ s.build.nMax → ∃ es : List RoundTweakey,
      exec (.tkgen n) s =
        .next { s with rtk := es, rtkLen := n.toNat, status := { s.status with err := 0 } } ∧
      es.length = s.build.nMax ∧
      (∀ k, k < n.toNat → ∀ i : Fin 8,
        let w := (tkStep s.build)^[k] { w1 := s.tk1, w2 := s.tk2, w3 := s.tk3 }
        (es.getD k zeroTweakey)[i] = w.w1[i.val] ^^^ w.w2[i.val] ^^^ w.w3[i.val]) ∧
      ∀ k, n.toNat ≤ k → k < s.build.nMax → ∀ i : Fin 8, (es.getD k zeroTweakey)[i] = 0) ∧
    (s.build.nMax < n.toNat →
      exec (.tkgen n) s = .next { s with status := { err := 2, sticky := true } }) ∧
    ImmediateCommand 0xA .tkgen s

/-- Derived (41_tweakey_schedule.md section 3, an inference of the spec): a shorter schedule is a prefix of
a longer one from the same words. -/
def Obligations.ScheduleHasThePrefixProperty : Prop :=
  ∀ (b : Build) (w : TkWords) (m n : Nat), m ≤ n →
    (schedule b w n).take m = schedule b w m ∧ (schedule b w n).length = n

/-- Derived (41_tweakey_schedule.md section 3, an inference of the spec): after TKGEN N, entry k is the XOR
of the first 8 cells of TK1 to TK3 after k TKUPD commands from the same words. -/
def Obligations.StreamEntryIsTheXorAfterTkupds : Prop :=
  ∀ (s : State) (n : BitVec 6) (k : Nat), k < n.toNat → n.toNat ≤ s.build.nMax → ∃ t u : State,
    exec (.tkgen n) s = .next t ∧ execAll (List.replicate k .tkupd) s = .next u ∧
    ∀ i : Fin 8, (t.rtk.getD k zeroTweakey)[i] = u.tk1[i.val] ^^^ u.tk2[i.val] ^^^ u.tk3[i.val]

/-- Derived (70_reset_and_hazards.md section 3): a later write to TK1, TK2 or TK3, or a TKUPD, changes
neither RTK nor RTK_LEN, and ADDTK, ROUND, IROUND, ENC and DEC go on using the old stream: whatever the
tweakey words then hold, they do the same. -/
def Obligations.TweakeyChangesLeaveTheStreamStale : Prop :=
  (∀ (s : State) (a : Addr) (v : Word64) (i : Instr),
    (a = 0x01 ∨ a = 0x02 ∨ a = 0x03) → (i = .wr a v ∨ i = .tkupd) →
    ∃ t, exec i s = .next t ∧ t.rtk = s.rtk ∧ t.rtkLen = s.rtkLen ∧ t.status.err = 0) ∧
  ∀ (s : State) (x y z : Cells) (i : Instr),
    (i = .enc ∨ i = .dec ∨ ∃ k, i = .addtk k ∨ i = .round k ∨ i = .iround k) →
    ∃ t, exec i s = .next t ∧
      exec i { s with tk1 := x, tk2 := y, tk3 := z } = .next { t with tk1 := x, tk2 := y, tk3 := z }

/-! ### Round engine -/

/-- Derived (42_round_engine.md section 1, inferences of the spec): under a legal CFG every round of the
branch has its stream index below N_MAX and its constant index at most 61. -/
def Obligations.RoundIndicesStayInRange : Prop :=
  ∀ (b : Build) (c : Cfg) (r : Nat), LegalBuild b → CfgLegal b.nMax c → r < c.r.toNat →
    streamIndex c r < b.nMax ∧ constantIndex b c r ≤ 61

/-- Derived (42_round_engine.md section 2, an inference of the spec): the inverse round undoes the forward
round and the other way round, for every round-tweakey and every constant index. -/
def Obligations.InverseRoundUndoesTheForwardRound : Prop :=
  ∀ (b : Build) (t : RoundTweakey) (c : Nat) (x : Cells), LegalBuild b →
    roundInv b t c (roundFwd b t c x) = x ∧ roundFwd b t c (roundInv b t c x) = x

/-- R174: ROUND r, with r < R and its stream entry generated, applies substitution, constant, round-tweakey,
permutation and diffusion, with stream index r before the fork and r + R0 after it, and the constant index
that RC_INDEX_MODE says; otherwise RANGE, or SCHED_SHORT, and ST unchanged. Its words are 0xB000 + r. -/
def Obligations.RoundAppliesOneForwardRound : Prop :=
  ∀ (s : State) (r : BitVec 6) (idx cidx : Nat),
    (idx = if r.toNat < s.cfg.ri.toNat then r.toNat else r.toNat + s.cfg.r0.toNat) →
    (cidx = if s.build.rcMode = .stream then idx else r.toNat) →
    (r.toNat < s.cfg.r.toNat → idx < s.rtkLen →
      exec (.round r) s =
        .next { s with
          st := diffuse s.build (permuteCells s.build (addTweakey (s.rtk.getD idx zeroTweakey)
            (addConstants s.build cidx (subCells s.build s.st)))),
          status := { s.status with err := 0 } }) ∧
    (s.cfg.r.toNat ≤ r.toNat →
      exec (.round r) s = .next { s with status := { err := 2, sticky := true } }) ∧
    (r.toNat < s.cfg.r.toNat → s.rtkLen ≤ idx →
      exec (.round r) s = .next { s with status := { err := 3, sticky := true } }) ∧
    ImmediateCommand 0xB .round s

/-- R175: IROUND r applies the inverse round of the same indices, under the same checks. Its words are
0xC000 + r. -/
def Obligations.IroundAppliesOneInverseRound : Prop :=
  ∀ (s : State) (r : BitVec 6) (idx cidx : Nat),
    (idx = if r.toNat < s.cfg.ri.toNat then r.toNat else r.toNat + s.cfg.r0.toNat) →
    (cidx = if s.build.rcMode = .stream then idx else r.toNat) →
    (r.toNat < s.cfg.r.toNat → idx < s.rtkLen →
      exec (.iround r) s =
        .next { s with
          st := isubCells s.build (addConstants s.build cidx (addTweakey (s.rtk.getD idx zeroTweakey)
            (unpermuteCells s.build (undiffuse s.build s.st)))),
          status := { s.status with err := 0 } }) ∧
    (s.cfg.r.toNat ≤ r.toNat →
      exec (.iround r) s = .next { s with status := { err := 2, sticky := true } }) ∧
    (r.toNat < s.cfg.r.toNat → s.rtkLen ≤ idx →
      exec (.iround r) s = .next { s with status := { err := 3, sticky := true } }) ∧
    ImmediateCommand 0xC .iround s

/-- R176: ENC applies forward rounds 0 to R-1 in rising order, each with its stream and constant index; a
stream shorter than R + R0 is SCHED_SHORT and ST unchanged. Its word is 0xD000, a non-zero IMM6 illegal. -/
def Obligations.EncAppliesTheRoundsInOrder : Prop :=
  ∀ s : State,
    (s.cfg.r.toNat + s.cfg.r0.toNat ≤ s.rtkLen →
      exec .enc s =
        .next { s with
          st := (List.range s.cfg.r.toNat).foldl
            (fun x r => roundFwd s.build (s.rtk.getD (streamIndex s.cfg r) zeroTweakey)
              (constantIndex s.build s.cfg r) x) s.st,
          status := { s.status with err := 0 } }) ∧
    (s.rtkLen < s.cfg.r.toNat + s.cfg.r0.toNat →
      exec .enc s = .next { s with status := { err := 3, sticky := true } }) ∧
    BareCommand 0xD .enc s

/-- R177: DEC applies inverse rounds R-1 down to 0, each with the stream and constant index of the
encryption round it undoes; a stream shorter than R + R0 is SCHED_SHORT and ST unchanged. Its word is
0xE000, a non-zero IMM6 illegal. -/
def Obligations.DecAppliesTheInverseRoundsInReverse : Prop :=
  ∀ s : State,
    (s.cfg.r.toNat + s.cfg.r0.toNat ≤ s.rtkLen →
      exec .dec s =
        .next { s with
          st := (List.range s.cfg.r.toNat).foldr
            (fun r x => roundInv s.build (s.rtk.getD (streamIndex s.cfg r) zeroTweakey)
              (constantIndex s.build s.cfg r) x) s.st,
          status := { s.status with err := 0 } }) ∧
    (s.rtkLen < s.cfg.r.toNat + s.cfg.r0.toNat →
      exec .dec s = .next { s with status := { err := 3, sticky := true } }) ∧
    BareCommand 0xE .dec s

/-- The correctness contract (42_round_engine.md section 4, an inference of the spec): with a stream of at
least R + R0 entries, ENC then DEC, and DEC then ENC, complete and leave ST as it was. -/
def Obligations.EncryptionAndDecryptionRoundTrip : Prop :=
  ∀ s : State, LegalBuild s.build → s.cfg.r.toNat + s.cfg.r0.toNat ≤ s.rtkLen →
    (∃ t, execAll [.enc, .dec] s = .next t ∧ t = { s with status := { s.status with err := 0 } }) ∧
    (∃ t, execAll [.dec, .enc] s = .next t ∧ t = { s with status := { s.status with err := 0 } })

/-- Derived (42_round_engine.md section 4, an inference of the spec): ENC is the sequence ROUND 0 to ROUND
R-1, and DEC is IROUND R-1 to IROUND 0. -/
def Obligations.EngineRunsDecomposeIntoRounds : Prop :=
  ∀ s : State, s.cfg.r.toNat + s.cfg.r0.toNat ≤ s.rtkLen → ∃ t u : State,
    exec .enc s = .next t ∧ exec .dec s = .next u ∧
    (∃ t', execAll ((List.range s.cfg.r.toNat).map fun r => .round (BitVec.ofNat 6 r)) s = .next t' ∧
      t'.st = t.st) ∧
    ∃ u', execAll ((List.range s.cfg.r.toNat).reverse.map fun r => .iround (BitVec.ofNat 6 r)) s = .next u' ∧
      u'.st = u.st

/-- Derived (42_round_engine.md section 4, an inference of the spec): under a fixed CFG and stream long
enough, ENC is a bijection of the states of ST: every ST is the result of exactly one. -/
def Obligations.EncIsABijectionOfTheCipherState : Prop :=
  ∀ s : State, LegalBuild s.build → s.cfg.r.toNat + s.cfg.r0.toNat ≤ s.rtkLen → ∀ y : Cells,
    ∃! x : Cells, exec .enc { s with st := x } =
      .next { s with st := y, status := { s.status with err := 0 } }

/-- Derived (30_encoding.md section 5, 42_round_engine.md section 4, inferences of the spec): the
assembler's RNDMAN and IRNDMAN with the indices of round r do exactly what ROUND r and IROUND r do, where
these succeed. -/
def Obligations.RoundByHandEqualsTheRound : Prop :=
  ∀ (s : State) (r : BitVec 6) (nMax : Nat), Inv s → r.toNat < s.cfg.r.toNat →
    streamIndex s.cfg r.toNat < s.rtkLen →
    ∃ fwd inv : List BusTx,
      assemble nMax (.rndman (streamIndex s.cfg r.toNat) (constantIndex s.build s.cfg r.toNat)) = some fwd ∧
      assemble nMax (.irndman (streamIndex s.cfg r.toNat) (constantIndex s.build s.cfg r.toNat)) = some inv ∧
      execAll (fwd.map decode) s = exec (.round r) s ∧ execAll (inv.map decode) s = exec (.iround r) s

/-- Derived (42_round_engine.md section 3, an inference of the spec): with RI = R, or with R0 = 0, the fork
has no effect: ENC leaves the ST that the unforked configuration (R, R, 0) leaves. -/
def Obligations.ForkWithoutSkipHasNoEffect : Prop :=
  ∀ s : State, (s.cfg.ri = s.cfg.r ∨ s.cfg.r0 = 0) → s.cfg.r.toNat + s.cfg.r0.toNat ≤ s.rtkLen →
    ∃ t u : State, exec .enc s = .next t ∧
      exec .enc { s with cfg := { r := s.cfg.r, ri := s.cfg.r, r0 := 0 } } = .next u ∧ t.st = u.st

/-! ### The host's assembler -/

/-- Derived (30_encoding.md section 5): a command line assembles to WR CMD of (OP << 12) | imm; an immediate
outside 0 to 63 is refused; RD and WR lines assemble to the transaction at the register's address. (The text
form of a line is log entry 9.) -/
def Obligations.AssemblyLinesAreTheirTransactions : Prop :=
  (∀ (nMax : Nat) (op : BitVec 4) (imm : Nat),
    (imm ≤ 63 → ∃ tx, assemble nMax (.command op imm) = some [tx] ∧ tx.we = true ∧ tx.addr = 0x05 ∧
      tx.data = BitVec.ofNat 64 ((op.toNat <<< 12) ||| imm)) ∧
    (63 < imm → assemble nMax (.command op imm) = none)) ∧
  ∀ (nMax : Nat) (reg : RegName) (a : Addr) (v : Word64), regAddr nMax reg = some a →
    assemble nMax (.rd reg) = some [{ we := false, addr := a, data := 0 }] ∧
    assemble nMax (.wr reg v) = some [{ we := true, addr := a, data := v }]

/-- Derived (30_encoding.md section 5): the register pseudo-instructions do what their names say. LDST and
LDTK load the given cells; SETCFG with fields that fit and are legal sets the three fields; CLRSTICKY clears
STICKY and leaves ERR. -/
def Obligations.PseudoInstructionsSetTheirRegisters : Prop :=
  ∀ (s : State) (nMax : Nat) (a b c : Cells) (r ri r0 : BitVec 6),
    (∃ txs, assemble nMax (.ldst a) = some txs ∧
      execAll (txs.map decode) s = .next { s with st := a, status := { s.status with err := 0 } }) ∧
    (∃ txs, assemble nMax (.ldtk a b c) = some txs ∧
      execAll (txs.map decode) s =
        .next { s with tk1 := a, tk2 := b, tk3 := c, status := { s.status with err := 0 } }) ∧
    (∃ txs, assemble nMax (.setcfg r.toNat ri.toNat r0.toNat) = some txs ∧
      (CfgLegal s.build.nMax { r := r, ri := ri, r0 := r0 } →
        execAll (txs.map decode) s =
          .next { s with cfg := { r := r, ri := ri, r0 := r0 }, status := { s.status with err := 0 } })) ∧
    (∃ txs, assemble nMax .clrsticky = some txs ∧
      execAll (txs.map decode) s = .next { s with status := { s.status with sticky := false } })
end

