-- ==== Sys2Proof/Laws/State.lean ====
section
/-! SUPPORT. What each register update leaves in each field, so that no proof unfolds an update. -/

namespace Sys2Proof.Machine

open Sys2Proof

@[simp] theorem State.withSt_st (s : State) (x : Cells) : (s.withSt x).st = x := rfl
@[simp] theorem State.withSt_tk1 (s : State) (x : Cells) : (s.withSt x).tk1 = s.tk1 := rfl
@[simp] theorem State.withSt_tk2 (s : State) (x : Cells) : (s.withSt x).tk2 = s.tk2 := rfl
@[simp] theorem State.withSt_tk3 (s : State) (x : Cells) : (s.withSt x).tk3 = s.tk3 := rfl
@[simp] theorem State.withSt_rtk (s : State) (x : Cells) : (s.withSt x).rtk = s.rtk := rfl
@[simp] theorem State.withSt_rtkLen (s : State) (x : Cells) : (s.withSt x).rtkLen = s.rtkLen := rfl
@[simp] theorem State.withSt_cfg (s : State) (x : Cells) : (s.withSt x).cfg = s.cfg := rfl
@[simp] theorem State.withSt_status (s : State) (x : Cells) : (s.withSt x).status = s.status := rfl
@[simp] theorem State.withSt_build (s : State) (x : Cells) : (s.withSt x).build = s.build := rfl
@[simp] theorem State.withSt_pending (s : State) (x : Cells) : (s.withSt x).pending = s.pending := rfl
@[simp] theorem State.withSt_responses (s : State) (x : Cells) : (s.withSt x).responses = s.responses := rfl

@[simp] theorem State.withTk1_st (s : State) (x : Cells) : (s.withTk1 x).st = s.st := rfl
@[simp] theorem State.withTk1_tk1 (s : State) (x : Cells) : (s.withTk1 x).tk1 = x := rfl
@[simp] theorem State.withTk1_tk2 (s : State) (x : Cells) : (s.withTk1 x).tk2 = s.tk2 := rfl
@[simp] theorem State.withTk1_tk3 (s : State) (x : Cells) : (s.withTk1 x).tk3 = s.tk3 := rfl
@[simp] theorem State.withTk1_rtk (s : State) (x : Cells) : (s.withTk1 x).rtk = s.rtk := rfl
@[simp] theorem State.withTk1_rtkLen (s : State) (x : Cells) : (s.withTk1 x).rtkLen = s.rtkLen := rfl
@[simp] theorem State.withTk1_cfg (s : State) (x : Cells) : (s.withTk1 x).cfg = s.cfg := rfl
@[simp] theorem State.withTk1_status (s : State) (x : Cells) : (s.withTk1 x).status = s.status := rfl
@[simp] theorem State.withTk1_build (s : State) (x : Cells) : (s.withTk1 x).build = s.build := rfl
@[simp] theorem State.withTk1_pending (s : State) (x : Cells) : (s.withTk1 x).pending = s.pending := rfl
@[simp] theorem State.withTk1_responses (s : State) (x : Cells) : (s.withTk1 x).responses = s.responses := rfl

@[simp] theorem State.withTk2_st (s : State) (x : Cells) : (s.withTk2 x).st = s.st := rfl
@[simp] theorem State.withTk2_tk1 (s : State) (x : Cells) : (s.withTk2 x).tk1 = s.tk1 := rfl
@[simp] theorem State.withTk2_tk2 (s : State) (x : Cells) : (s.withTk2 x).tk2 = x := rfl
@[simp] theorem State.withTk2_tk3 (s : State) (x : Cells) : (s.withTk2 x).tk3 = s.tk3 := rfl
@[simp] theorem State.withTk2_rtk (s : State) (x : Cells) : (s.withTk2 x).rtk = s.rtk := rfl
@[simp] theorem State.withTk2_rtkLen (s : State) (x : Cells) : (s.withTk2 x).rtkLen = s.rtkLen := rfl
@[simp] theorem State.withTk2_cfg (s : State) (x : Cells) : (s.withTk2 x).cfg = s.cfg := rfl
@[simp] theorem State.withTk2_status (s : State) (x : Cells) : (s.withTk2 x).status = s.status := rfl
@[simp] theorem State.withTk2_build (s : State) (x : Cells) : (s.withTk2 x).build = s.build := rfl
@[simp] theorem State.withTk2_pending (s : State) (x : Cells) : (s.withTk2 x).pending = s.pending := rfl
@[simp] theorem State.withTk2_responses (s : State) (x : Cells) : (s.withTk2 x).responses = s.responses := rfl

@[simp] theorem State.withTk3_st (s : State) (x : Cells) : (s.withTk3 x).st = s.st := rfl
@[simp] theorem State.withTk3_tk1 (s : State) (x : Cells) : (s.withTk3 x).tk1 = s.tk1 := rfl
@[simp] theorem State.withTk3_tk2 (s : State) (x : Cells) : (s.withTk3 x).tk2 = s.tk2 := rfl
@[simp] theorem State.withTk3_tk3 (s : State) (x : Cells) : (s.withTk3 x).tk3 = x := rfl
@[simp] theorem State.withTk3_rtk (s : State) (x : Cells) : (s.withTk3 x).rtk = s.rtk := rfl
@[simp] theorem State.withTk3_rtkLen (s : State) (x : Cells) : (s.withTk3 x).rtkLen = s.rtkLen := rfl
@[simp] theorem State.withTk3_cfg (s : State) (x : Cells) : (s.withTk3 x).cfg = s.cfg := rfl
@[simp] theorem State.withTk3_status (s : State) (x : Cells) : (s.withTk3 x).status = s.status := rfl
@[simp] theorem State.withTk3_build (s : State) (x : Cells) : (s.withTk3 x).build = s.build := rfl
@[simp] theorem State.withTk3_pending (s : State) (x : Cells) : (s.withTk3 x).pending = s.pending := rfl
@[simp] theorem State.withTk3_responses (s : State) (x : Cells) : (s.withTk3 x).responses = s.responses := rfl

@[simp] theorem State.withCfg_st (s : State) (c : Cfg) : (s.withCfg c).st = s.st := rfl
@[simp] theorem State.withCfg_tk1 (s : State) (c : Cfg) : (s.withCfg c).tk1 = s.tk1 := rfl
@[simp] theorem State.withCfg_tk2 (s : State) (c : Cfg) : (s.withCfg c).tk2 = s.tk2 := rfl
@[simp] theorem State.withCfg_tk3 (s : State) (c : Cfg) : (s.withCfg c).tk3 = s.tk3 := rfl
@[simp] theorem State.withCfg_rtk (s : State) (c : Cfg) : (s.withCfg c).rtk = s.rtk := rfl
@[simp] theorem State.withCfg_rtkLen (s : State) (c : Cfg) : (s.withCfg c).rtkLen = s.rtkLen := rfl
@[simp] theorem State.withCfg_cfg (s : State) (c : Cfg) : (s.withCfg c).cfg = c := rfl
@[simp] theorem State.withCfg_status (s : State) (c : Cfg) : (s.withCfg c).status = s.status := rfl
@[simp] theorem State.withCfg_build (s : State) (c : Cfg) : (s.withCfg c).build = s.build := rfl
@[simp] theorem State.withCfg_pending (s : State) (c : Cfg) : (s.withCfg c).pending = s.pending := rfl
@[simp] theorem State.withCfg_responses (s : State) (c : Cfg) : (s.withCfg c).responses = s.responses := rfl

@[simp] theorem State.withStatus_st (s : State) (x : Status) : (s.withStatus x).st = s.st := rfl
@[simp] theorem State.withStatus_tk1 (s : State) (x : Status) : (s.withStatus x).tk1 = s.tk1 := rfl
@[simp] theorem State.withStatus_tk2 (s : State) (x : Status) : (s.withStatus x).tk2 = s.tk2 := rfl
@[simp] theorem State.withStatus_tk3 (s : State) (x : Status) : (s.withStatus x).tk3 = s.tk3 := rfl
@[simp] theorem State.withStatus_rtk (s : State) (x : Status) : (s.withStatus x).rtk = s.rtk := rfl
@[simp] theorem State.withStatus_rtkLen (s : State) (x : Status) : (s.withStatus x).rtkLen = s.rtkLen := rfl
@[simp] theorem State.withStatus_cfg (s : State) (x : Status) : (s.withStatus x).cfg = s.cfg := rfl
@[simp] theorem State.withStatus_status (s : State) (x : Status) : (s.withStatus x).status = x := rfl
@[simp] theorem State.withStatus_build (s : State) (x : Status) : (s.withStatus x).build = s.build := rfl
@[simp] theorem State.withStatus_pending (s : State) (x : Status) : (s.withStatus x).pending = s.pending := rfl
@[simp] theorem State.withStatus_responses (s : State) (x : Status) : (s.withStatus x).responses = s.responses := rfl

@[simp] theorem State.withPending_st (s : State) (evs : List HostEvent) : (s.withPending evs).st = s.st := rfl
@[simp] theorem State.withPending_tk1 (s : State) (evs : List HostEvent) : (s.withPending evs).tk1 = s.tk1 := rfl
@[simp] theorem State.withPending_tk2 (s : State) (evs : List HostEvent) : (s.withPending evs).tk2 = s.tk2 := rfl
@[simp] theorem State.withPending_tk3 (s : State) (evs : List HostEvent) : (s.withPending evs).tk3 = s.tk3 := rfl
@[simp] theorem State.withPending_rtk (s : State) (evs : List HostEvent) : (s.withPending evs).rtk = s.rtk := rfl
@[simp] theorem State.withPending_rtkLen (s : State) (evs : List HostEvent) : (s.withPending evs).rtkLen = s.rtkLen := rfl
@[simp] theorem State.withPending_cfg (s : State) (evs : List HostEvent) : (s.withPending evs).cfg = s.cfg := rfl
@[simp] theorem State.withPending_status (s : State) (evs : List HostEvent) : (s.withPending evs).status = s.status := rfl
@[simp] theorem State.withPending_build (s : State) (evs : List HostEvent) : (s.withPending evs).build = s.build := rfl
@[simp] theorem State.withPending_pending (s : State) (evs : List HostEvent) : (s.withPending evs).pending = evs := rfl
@[simp] theorem State.withPending_responses (s : State) (evs : List HostEvent) : (s.withPending evs).responses = s.responses := rfl

@[simp] theorem State.withStream_st (s : State) (es : List RoundTweakey) (n : Nat) : (s.withStream es n).st = s.st := rfl
@[simp] theorem State.withStream_tk1 (s : State) (es : List RoundTweakey) (n : Nat) : (s.withStream es n).tk1 = s.tk1 := rfl
@[simp] theorem State.withStream_tk2 (s : State) (es : List RoundTweakey) (n : Nat) : (s.withStream es n).tk2 = s.tk2 := rfl
@[simp] theorem State.withStream_tk3 (s : State) (es : List RoundTweakey) (n : Nat) : (s.withStream es n).tk3 = s.tk3 := rfl
@[simp] theorem State.withStream_rtk (s : State) (es : List RoundTweakey) (n : Nat) : (s.withStream es n).rtk = es := rfl
@[simp] theorem State.withStream_rtkLen (s : State) (es : List RoundTweakey) (n : Nat) : (s.withStream es n).rtkLen = n := rfl
@[simp] theorem State.withStream_cfg (s : State) (es : List RoundTweakey) (n : Nat) : (s.withStream es n).cfg = s.cfg := rfl
@[simp] theorem State.withStream_status (s : State) (es : List RoundTweakey) (n : Nat) : (s.withStream es n).status = s.status := rfl
@[simp] theorem State.withStream_build (s : State) (es : List RoundTweakey) (n : Nat) : (s.withStream es n).build = s.build := rfl
@[simp] theorem State.withStream_pending (s : State) (es : List RoundTweakey) (n : Nat) : (s.withStream es n).pending = s.pending := rfl
@[simp] theorem State.withStream_responses (s : State) (es : List RoundTweakey) (n : Nat) : (s.withStream es n).responses = s.responses := rfl

@[simp] theorem State.respond_st (s : State) (w : Word64) : (s.respond w).st = s.st := rfl
@[simp] theorem State.respond_tk1 (s : State) (w : Word64) : (s.respond w).tk1 = s.tk1 := rfl
@[simp] theorem State.respond_tk2 (s : State) (w : Word64) : (s.respond w).tk2 = s.tk2 := rfl
@[simp] theorem State.respond_tk3 (s : State) (w : Word64) : (s.respond w).tk3 = s.tk3 := rfl
@[simp] theorem State.respond_rtk (s : State) (w : Word64) : (s.respond w).rtk = s.rtk := rfl
@[simp] theorem State.respond_rtkLen (s : State) (w : Word64) : (s.respond w).rtkLen = s.rtkLen := rfl
@[simp] theorem State.respond_cfg (s : State) (w : Word64) : (s.respond w).cfg = s.cfg := rfl
@[simp] theorem State.respond_status (s : State) (w : Word64) : (s.respond w).status = s.status := rfl
@[simp] theorem State.respond_build (s : State) (w : Word64) : (s.respond w).build = s.build := rfl
@[simp] theorem State.respond_pending (s : State) (w : Word64) : (s.respond w).pending = s.pending := rfl
@[simp] theorem State.respond_responses (s : State) (w : Word64) : (s.respond w).responses = s.responses ++ [w] := rfl

@[simp] theorem raiseError_st (c : ErrCode) (s : State) : (raiseError c s).st = s.st := rfl
@[simp] theorem raiseError_tk1 (c : ErrCode) (s : State) : (raiseError c s).tk1 = s.tk1 := rfl
@[simp] theorem raiseError_tk2 (c : ErrCode) (s : State) : (raiseError c s).tk2 = s.tk2 := rfl
@[simp] theorem raiseError_tk3 (c : ErrCode) (s : State) : (raiseError c s).tk3 = s.tk3 := rfl
@[simp] theorem raiseError_rtk (c : ErrCode) (s : State) : (raiseError c s).rtk = s.rtk := rfl
@[simp] theorem raiseError_rtkLen (c : ErrCode) (s : State) : (raiseError c s).rtkLen = s.rtkLen := rfl
@[simp] theorem raiseError_cfg (c : ErrCode) (s : State) : (raiseError c s).cfg = s.cfg := rfl
@[simp] theorem raiseError_status (c : ErrCode) (s : State) : (raiseError c s).status = errorStatus c := rfl
@[simp] theorem raiseError_build (c : ErrCode) (s : State) : (raiseError c s).build = s.build := rfl
@[simp] theorem raiseError_pending (c : ErrCode) (s : State) : (raiseError c s).pending = s.pending := rfl
@[simp] theorem raiseError_responses (c : ErrCode) (s : State) : (raiseError c s).responses = s.responses := rfl

@[simp] theorem State.resetOf_st (b : Build) : (State.resetOf b).st = zeroCells := rfl
@[simp] theorem State.resetOf_tk1 (b : Build) : (State.resetOf b).tk1 = zeroCells := rfl
@[simp] theorem State.resetOf_tk2 (b : Build) : (State.resetOf b).tk2 = zeroCells := rfl
@[simp] theorem State.resetOf_tk3 (b : Build) : (State.resetOf b).tk3 = zeroCells := rfl
@[simp] theorem State.resetOf_rtk (b : Build) : (State.resetOf b).rtk = List.replicate b.nMax zeroTweakey := rfl
@[simp] theorem State.resetOf_rtkLen (b : Build) : (State.resetOf b).rtkLen = 0 := rfl
@[simp] theorem State.resetOf_cfg (b : Build) : (State.resetOf b).cfg = ⟨0, 0, 0⟩ := rfl
@[simp] theorem State.resetOf_status (b : Build) : (State.resetOf b).status = ⟨0, false⟩ := rfl
@[simp] theorem State.resetOf_build (b : Build) : (State.resetOf b).build = b := rfl
@[simp] theorem State.resetOf_pending (b : Build) : (State.resetOf b).pending = [] := rfl
@[simp] theorem State.resetOf_responses (b : Build) : (State.resetOf b).responses = [] := rfl

@[simp] theorem State.doReset_st (s : State) : s.doReset.st = zeroCells := rfl
@[simp] theorem State.doReset_tk1 (s : State) : s.doReset.tk1 = zeroCells := rfl
@[simp] theorem State.doReset_tk2 (s : State) : s.doReset.tk2 = zeroCells := rfl
@[simp] theorem State.doReset_tk3 (s : State) : s.doReset.tk3 = zeroCells := rfl
@[simp] theorem State.doReset_rtk (s : State) : s.doReset.rtk = List.replicate s.build.nMax zeroTweakey := rfl
@[simp] theorem State.doReset_rtkLen (s : State) : s.doReset.rtkLen = 0 := rfl
@[simp] theorem State.doReset_cfg (s : State) : s.doReset.cfg = ⟨0, 0, 0⟩ := rfl
@[simp] theorem State.doReset_status (s : State) : s.doReset.status = ⟨0, false⟩ := rfl
@[simp] theorem State.doReset_build (s : State) : s.doReset.build = s.build := rfl
@[simp] theorem State.doReset_pending (s : State) : s.doReset.pending = s.pending := rfl
@[simp] theorem State.doReset_responses (s : State) : s.doReset.responses = s.responses := rfl

@[simp] theorem okStatus_err (x : Status) : (okStatus x).err = 0 := rfl
@[simp] theorem okStatus_sticky (x : Status) : (okStatus x).sticky = x.sticky := rfl
@[simp] theorem errorStatus_err (c : ErrCode) : (errorStatus c).err = errCode c := rfl
@[simp] theorem errorStatus_sticky (c : ErrCode) : (errorStatus c).sticky = true := rfl

/-- A host write to STATUS never changes ERR. -/
@[simp] theorem writeStatus_err (v : Word64) (x : Status) : (writeStatus v x).err = x.err := by
  unfold writeStatus; split <;> rfl

/-- A host write to STATUS clears STICKY by bit 8 only. -/
@[simp] theorem writeStatus_sticky (v : Word64) (x : Status) :
    (writeStatus v x).sticky = (x.sticky && !v.getLsbD 8) := by
  unfold writeStatus; split <;> simp_all

/-- The error codes are 1 to 6. -/
theorem errCode_range (c : ErrCode) : 1 ≤ (errCode c).toNat ∧ (errCode c).toNat ≤ 6 := by
  cases c <;> decide

/-- No error has the code of OK. -/
theorem errCode_ne_zero (c : ErrCode) : errCode c ≠ 0 := by
  cases c <;> decide

end Sys2Proof.Machine
end

