-- ==== Sys2Proof/Laws/Ops.lean ====
section
/-! SUPPORT. What the shared operations do, each said once: cell sequences, bus words, the address map,
the end of a write. -/

namespace Sys2Proof.Machine

open Sys2Proof

/-- Cell `i` of `cellsOf f` is `f i`. -/
theorem cellsOf_get (f : Fin 16 → Cell) (i : Fin 16) : (cellsOf f)[i] = f i := by
  fin_cases i <;> rfl

/-- The same, read by a number below 16. -/
@[simp] theorem cellsOf_getElem (f : Fin 16 → Cell) (i : Nat) (h : i < 16) :
    (cellsOf f)[i] = f ⟨i, h⟩ :=
  cellsOf_get f ⟨i, h⟩

/-- Cell `i` of `tweakeyOf f` is `f i`. -/
theorem tweakeyOf_get (f : Fin 8 → Cell) (i : Fin 8) : (tweakeyOf f)[i] = f i := by
  fin_cases i <;> rfl

/-- The same, read by a number below 8. -/
@[simp] theorem tweakeyOf_getElem (f : Fin 8 → Cell) (i : Nat) (h : i < 8) :
    (tweakeyOf f)[i] = f ⟨i, h⟩ :=
  tweakeyOf_get f ⟨i, h⟩

/-- Two cell sequences are equal when their sixteen cells are. -/
theorem cells_ext {x y : Cells} (h : ∀ i : Fin 16, x[i] = y[i]) : x = y :=
  Vector.ext fun i hi => h ⟨i, hi⟩

/-- Two round-tweakeys are equal when their eight cells are. -/
theorem tweakey_ext {x y : RoundTweakey} (h : ∀ i : Fin 8, x[i] = y[i]) : x = y :=
  Vector.ext fun i hi => h ⟨i, hi⟩

/-- Cell `i` of an unpacked word. -/
@[simp] theorem unpack16_getElem (v : Word64) (i : Nat) (h : i < 16) :
    (unpack16 v)[i] = v.extractLsb' (60 - 4 * i) 4 :=
  cellsOf_getElem _ i h

/-- The four bits of a packed word that hold cell `i`. -/
theorem pack16_extract (s : Cells) (i : Fin 16) :
    (pack16 s).extractLsb' (60 - 4 * i.val) 4 = s[i] := by
  ext j hj
  simp only [pack16, BitVec.getElem_extractLsb', BitVec.getLsbD_append]
  fin_cases i <;> interval_cases j <;> rfl

/-- The four bits of a packed round-tweakey that hold cell `i`. -/
theorem pack8_extract (t : RoundTweakey) (i : Fin 8) :
    (pack8 t).extractLsb' (28 - 4 * i.val) 4 = t[i] := by
  ext j hj
  simp only [pack8, BitVec.getElem_extractLsb', BitVec.getLsbD_append]
  fin_cases i <;> interval_cases j <;> rfl

/-- The upper half of a packed round-tweakey is 0. -/
theorem pack8_high (t : RoundTweakey) : (pack8 t).extractLsb' 32 32 = 0 := by
  ext j hj
  simp only [pack8, BitVec.getElem_extractLsb', BitVec.getLsbD_append]
  interval_cases j <;> first | rfl | simp

/-- The fields of a command word. -/
theorem commandWord_fields (op : BitVec 4) (imm : BitVec 6) :
    (commandWord op imm).extractLsb' 16 48 = 0 ∧ (commandWord op imm).extractLsb' 12 4 = op ∧
      (commandWord op imm).extractLsb' 6 6 = 0 ∧ (commandWord op imm).extractLsb' 0 6 = imm := by
  refine ⟨?_, ?_, ?_, ?_⟩ <;> ext j hj <;>
    simp only [commandWord, BitVec.getElem_extractLsb', BitVec.getLsbD_append] <;>
    interval_cases j <;> first | rfl | simp

/-- The fields of the bus word of CFG. -/
theorem cfgWord_fields (c : Cfg) :
    (cfgWord c).extractLsb' 0 6 = c.r ∧ (cfgWord c).extractLsb' 6 2 = 0 ∧
      (cfgWord c).extractLsb' 8 6 = c.ri ∧ (cfgWord c).extractLsb' 14 2 = 0 ∧
      (cfgWord c).extractLsb' 16 6 = c.r0 ∧ (cfgWord c).extractLsb' 22 42 = 0 := by
  refine ⟨?_, ?_, ?_, ?_, ?_, ?_⟩ <;> ext j hj <;>
    simp only [cfgWord, BitVec.getElem_extractLsb', BitVec.getLsbD_append] <;>
    interval_cases j <;> first | rfl | simp

/-- The address map gives each register its own addresses. -/
theorem regAt_spec (nMax : Nat) (a : Addr) :
    (a = 0x00 ∧ regAt nMax a = .st) ∨ (a = 0x01 ∧ regAt nMax a = .tk1) ∨
    (a = 0x02 ∧ regAt nMax a = .tk2) ∨ (a = 0x03 ∧ regAt nMax a = .tk3) ∨
    (a = 0x04 ∧ regAt nMax a = .cfg) ∨ (a = 0x05 ∧ regAt nMax a = .cmd) ∨
    (a = 0x06 ∧ regAt nMax a = .status) ∨ (a = 0x07 ∧ regAt nMax a = .rtkLen) ∨
    (a = 0x08 ∧ regAt nMax a = .hwcfg) ∨
    (0x40 ≤ a.toNat ∧ a.toNat < 0x40 + nMax ∧ regAt nMax a = .rtk (a.toNat - 0x40)) ∨
    (0x09 ≤ a.toNat ∧ (a.toNat < 0x40 ∨ 0x40 + nMax ≤ a.toNat) ∧ regAt nMax a = .unmapped) := by
  by_cases low : a.toNat < 9
  · have hn := BitVec.ofNat_toNat 8 a
    rw [BitVec.setWidth_eq] at hn
    rw [← hn]
    generalize a.toNat = n at low
    interval_cases n <;> simp [regAt]
  · have high : regAt nMax a =
        if 0x40 ≤ a.toNat ∧ a.toNat < 0x40 + nMax then .rtk (a.toNat - 0x40) else .unmapped := by
      unfold regAt
      split <;> first | omega | rfl
    rw [high]
    split <;> simp <;> omega

/-- How a write ends: in a next state always; the new state with ERR = OK, or the old one with the error. -/
theorem finishWrite_cases (s : State) (r : Except ErrCode State) :
    (∃ t, r = .ok t ∧ finishWrite s r = .next (t.withStatus (okStatus t.status))) ∨
    (∃ c, r = .error c ∧ finishWrite s r = .next (raiseError c s)) := by
  cases r with
  | ok t => exact .inl ⟨t, rfl, rfl⟩
  | error c => exact .inr ⟨c, rfl, rfl⟩

@[simp] theorem finishWrite_ok (s t : State) :
    finishWrite s (.ok t) = .next (t.withStatus (okStatus t.status)) := rfl

@[simp] theorem finishWrite_error (s : State) (c : ErrCode) :
    finishWrite s (.error c) = .next (raiseError c s) := rfl

end Sys2Proof.Machine
end

