-- ==== Sys2Proof/Laws/Exec.lean ====
section
/-! SUPPORT. What `exec` does with each instruction, said once: its meaning as the end of a write, and
what a write that succeeds keeps. Later proofs cite these instead of unfolding the meanings. -/

namespace Sys2Proof.Machine

open Sys2Proof

theorem exec_rd (a : Addr) (s : State) : exec (.rd a) s = .next (s.respond (busRead s a)) := rfl

theorem exec_nop (s : State) : exec .nop s = finishWrite s (.ok s) := rfl

theorem exec_sub (s : State) : exec .sub s = finishWrite s (.ok (s.withSt (subCells s.build s.st))) := rfl

theorem exec_isub (s : State) : exec .isub s = finishWrite s (.ok (s.withSt (isubCells s.build s.st))) := rfl

theorem exec_perm (s : State) :
    exec .perm s = finishWrite s (.ok (s.withSt (permuteCells s.build s.st))) := rfl

theorem exec_iperm (s : State) :
    exec .iperm s = finishWrite s (.ok (s.withSt (unpermuteCells s.build s.st))) := rfl

theorem exec_mix (s : State) : exec .mix s = finishWrite s (.ok (s.withSt (diffuse s.build s.st))) := rfl

theorem exec_imix (s : State) : exec .imix s = finishWrite s (.ok (s.withSt (undiffuse s.build s.st))) := rfl

theorem exec_addc (k : BitVec 6) (s : State) :
    exec (.addc k) s = finishWrite s
      (if k.toNat > 61 then .error .range else .ok (s.withSt (addConstants s.build k.toNat s.st))) := rfl

theorem exec_addtk (k : BitVec 6) (s : State) :
    exec (.addtk k) s = finishWrite s
      (if k.toNat ≥ s.rtkLen then .error .schedShort
       else .ok (s.withSt (addTweakey (s.rtkAt k.toNat) s.st))) := rfl

theorem exec_tkupd (s : State) :
    exec .tkupd s = finishWrite s
      (.ok (((s.withTk1 (tkStep s.build s.tkWords).w1).withTk2 (tkStep s.build s.tkWords).w2).withTk3
        (tkStep s.build s.tkWords).w3)) := rfl

theorem exec_tkgen (n : BitVec 6) (s : State) :
    exec (.tkgen n) s = finishWrite s
      (if n.toNat > s.build.nMax then .error .range
       else .ok (s.withStream
         (schedule s.build s.tkWords n.toNat ++ List.replicate (s.build.nMax - n.toNat) zeroTweakey)
         n.toNat)) := rfl

theorem exec_round (r : BitVec 6) (s : State) :
    exec (.round r) s = finishWrite s
      ((checkRound r.toNat s).map fun _ => s.withSt (s.roundAt r.toNat s.st)) := rfl

theorem exec_iround (r : BitVec 6) (s : State) :
    exec (.iround r) s = finishWrite s
      ((checkRound r.toNat s).map fun _ => s.withSt (s.roundInvAt r.toNat s.st)) := rfl

theorem exec_enc (s : State) :
    exec .enc s = finishWrite s
      ((checkEngine s).map fun _ => s.withSt (s.encRounds s.cfg.r.toNat s.st)) := rfl

theorem exec_dec (s : State) :
    exec .dec s = finishWrite s
      ((checkEngine s).map fun _ => s.withSt (s.decRounds s.cfg.r.toNat s.st)) := rfl

theorem exec_wr (a : Addr) (v : Word64) (s : State) : exec (.wr a v) s = execWr a v s := rfl

theorem exec_wr_cmd (v : Word64) (s : State) : exec (.wr 0x05 v) s = writeCmd v s := rfl

theorem exec_wr_cfg (v : Word64) (s : State) : exec (.wr 0x04 v) s = writeCfg v s := rfl

theorem exec_wr_status (v : Word64) (s : State) :
    exec (.wr 0x06 v) s = .next (s.withStatus (writeStatus v s.status)) := rfl

/-- The check of ROUND and IROUND passes, or gives RANGE or SCHED_SHORT by its order. -/
theorem checkRound_cases (r : Nat) (s : State) :
    (r < s.cfg.r.toNat ∧ streamIndex s.cfg r < s.rtkLen ∧ checkRound r s = .ok ()) ∨
    (s.cfg.r.toNat ≤ r ∧ checkRound r s = .error .range) ∨
    (r < s.cfg.r.toNat ∧ s.rtkLen ≤ streamIndex s.cfg r ∧ checkRound r s = .error .schedShort) := by
  unfold checkRound
  split
  · exact .inr (.inl ⟨‹_›, rfl⟩)
  · split
    · exact .inr (.inr ⟨by omega, ‹_›, rfl⟩)
    · exact .inl ⟨by omega, by omega, rfl⟩

/-- The check of ENC and DEC passes when the stream holds R + R0 entries, and gives SCHED_SHORT else. -/
theorem checkEngine_cases (s : State) :
    (s.cfg.r.toNat + s.cfg.r0.toNat ≤ s.rtkLen ∧ checkEngine s = .ok ()) ∨
    (s.rtkLen < s.cfg.r.toNat + s.cfg.r0.toNat ∧ checkEngine s = .error .schedShort) := by
  unfold checkEngine
  split
  · exact .inr ⟨‹_›, rfl⟩
  · exact .inl ⟨by omega, rfl⟩

/-- A command executed through CMD is the command. -/
theorem executeCommand_eq_exec (i : Instr) (s : State) (h : isCommand i = true) :
    executeCommand i s = exec i s := by
  cases i <;> first | rfl | simp [isCommand] at h

end Sys2Proof.Machine
end

