-- ==== Sys2Proof/Laws/Bus.lean ====
section
/-! SUPPORT. The bus words of the registers, field by field, and the writes of words to CMD. -/

namespace Sys2Proof.Machine

open Sys2Proof

/-- The fields of the bus word of STATUS. -/
theorem statusWord_fields (x : Status) :
    (statusWord x).extractLsb' 0 4 = x.err ∧ (statusWord x).extractLsb' 4 4 = 0 ∧
      (statusWord x).getLsbD 8 = x.sticky ∧ (statusWord x).extractLsb' 9 55 = 0 := by
  refine ⟨?_, ?_, ?_, ?_⟩
  case refine_3 => simp only [statusWord, BitVec.getLsbD_append]; simp
  all_goals
    ext j hj
    simp only [statusWord, BitVec.getElem_extractLsb', BitVec.getLsbD_append]
    interval_cases j <;> first | rfl | simp

/-- The fields of the bus word of HWCFG. -/
theorem hwcfgWord_fields (b : Build) :
    (hwcfgWord b).extractLsb' 0 6 = BitVec.ofNat 6 b.nMax ∧ (hwcfgWord b).extractLsb' 6 2 = 0 ∧
      (hwcfgWord b).getLsbD 8 = (b.rcMode == .branch) ∧ (hwcfgWord b).extractLsb' 9 55 = 0 := by
  refine ⟨?_, ?_, ?_, ?_⟩
  case refine_3 => simp only [hwcfgWord, BitVec.getLsbD_append]; simp
  all_goals
    ext j hj
    simp only [hwcfgWord, BitVec.getElem_extractLsb', BitVec.getLsbD_append]
    interval_cases j <;> first | rfl | simp

/-- Bit `j` of a packed word is a bit of the cell that holds it. -/
theorem pack16_getLsbD (s : Cells) (j : Nat) (hj : j < 64) :
    (pack16 s).getLsbD j = (s[15 - j / 4]'(by omega)).getLsbD (j % 4) := by
  have h := congrArg (fun w => w.getLsbD (j % 4)) (pack16_extract s ⟨15 - j / 4, by omega⟩)
  simp only [BitVec.getLsbD_extractLsb'] at h
  rw [show (60 - 4 * (15 - j / 4)) + j % 4 = j by omega, decide_eq_true (by omega), Bool.true_and] at h
  exact h

/-- Unpacking a word and packing it again gives it back. -/
theorem pack16_unpack16 (v : Word64) : pack16 (unpack16 v) = v := by
  apply BitVec.eq_of_getLsbD_eq
  intro j hj
  rw [pack16_getLsbD _ _ hj, unpack16_getElem, BitVec.getLsbD_extractLsb', decide_eq_true (by omega),
    Bool.true_and]
  congr 1
  omega

/-- Packing cells and unpacking them again gives them back. -/
theorem unpack16_pack16 (s : Cells) : unpack16 (pack16 s) = s := by
  apply cells_ext
  intro i
  rw [← pack16_extract s i]
  exact unpack16_getElem _ _ _

/-- A write to CMD of a word that decodes is the end of that command. -/
theorem exec_wr_cmd_ok {v : Word64} {i : Instr} (s : State) (h : decodeCommand v = .ok i) :
    exec (.wr 0x05 v) s = executeCommand i s := by
  rw [exec_wr_cmd, writeCmd, h]

/-- A write to CMD of a word that does not decode raises ILLEGAL_CMD. -/
theorem exec_wr_cmd_error {v : Word64} {e : IllegalCommand} (s : State)
    (h : decodeCommand v = .error e) : exec (.wr 0x05 v) s = .next (raiseError .illegalCmd s) := by
  rw [exec_wr_cmd, writeCmd, h]
  rfl

end Sys2Proof.Machine
end

