-- ==== Sys2Proof/Laws/Decode.lean ====
section
/-! SUPPORT. The decoder's cases, each said once. -/

namespace Sys2Proof.Machine

open Sys2Proof

/-- A read decodes to RD whatever its data. -/
theorem decode_read (a : Addr) (v : Word64) : decode { we := false, addr := a, data := v } = .rd a := rfl

/-- A write decodes to the command whose word it writes to CMD, and to WR otherwise. -/
theorem decode_write (a : Addr) (v : Word64) :
    decode { we := true, addr := a, data := v } =
      if a = cmdAddr then
        (match decodeCommand v with
        | .ok i => i
        | .error _ => .wr a v)
      else .wr a v := rfl

/-- The word of an opcode and an operand is decoded by the command map. -/
theorem decodeCommand_commandWord (op : BitVec 4) (imm : BitVec 6) :
    decodeCommand (commandWord op imm) = commandOf op imm := by
  obtain ⟨hi, ho, lo, hm⟩ := commandWord_fields op imm
  simp [decodeCommand, hi, ho, lo, hm]

/-- The transaction of a command word that the command map knows decodes to its command. -/
theorem decode_commandTx {op : BitVec 4} {imm : BitVec 6} {i : Instr} (h : commandOf op imm = .ok i) :
    decode (commandTx op imm) = i := by
  simp [decode, commandTx, decodeCommand_commandWord, h]

/-- A word with no reserved bit set is the word of its OP and its IMM6. -/
theorem commandWord_of_fields (v : Word64) (hi : v.extractLsb' 16 48 = 0) (lo : v.extractLsb' 6 6 = 0) :
    commandWord (v.extractLsb' 12 4) (v.extractLsb' 0 6) = v := by
  have high : ∀ j, j < 48 → v.getLsbD (16 + j) = false := fun j hj => by
    simpa [hj] using congrArg (fun w => w.getLsbD j) hi
  have low : ∀ j, j < 6 → v.getLsbD (6 + j) = false := fun j hj => by
    simpa [hj] using congrArg (fun w => w.getLsbD j) lo
  ext j hj
  rw [← BitVec.getLsbD_eq_getElem, ← BitVec.getLsbD_eq_getElem]
  simp only [commandWord, BitVec.getLsbD_append, BitVec.getLsbD_extractLsb']
  split
  · rename_i h6
    simp [h6]
  split
  · have := low (j - 6) (by omega)
    rw [show 6 + (j - 6) = j by omega] at this
    simp [this]
  split
  · rename_i h10
    rw [show 12 + (j - 6 - 6) = j by omega, decide_eq_true h10, Bool.true_and]
  · have := high (j - 16) (by omega)
    rw [show 16 + (j - 16) = j by omega] at this
    simp [this]

/-- An instruction of the command map is encoded by the same opcode and operand. -/
theorem encode_commandOf {op : BitVec 4} {imm : BitVec 6} {i : Instr} (h : commandOf op imm = .ok i) :
    encode i = commandTx op imm ∧ i.wellFormed = true := by
  have ho := op.isLt
  have hop : op = BitVec.ofNat 4 op.toNat := by simp
  unfold commandOf at h
  generalize op.toNat = n at *
  subst hop
  interval_cases n <;> simp at h <;> (try split at h) <;> simp_all <;> subst h <;> exact ⟨rfl, rfl⟩

end Sys2Proof.Machine
end

