-- ==== Sys2Proof/Laws/Nibble.lean ====
section
/-! SUPPORT. The inverse tables of a legal build, and the rows of the diffusion matrix. -/

namespace Sys2Proof.Machine

open Sys2Proof

theorem mem_positions (i : Fin 16) : i ∈ positions := by
  revert i
  decide

/-- In a legal build every value is an entry of SBOX. -/
theorem exists_sbox {b : Build} (hb : LegalBuild b) (x : Cell) : ∃ i : Fin 16, b.sbox[i] = x := by
  have inj : Function.Injective (fun i : Fin 16 => (b.sbox[i]).toFin) :=
    fun i j h => hb.1 i j (BitVec.eq_of_toFin_eq h)
  obtain ⟨i, hi⟩ := (Finite.injective_iff_surjective.1 inj) x.toFin
  exact ⟨i, BitVec.eq_of_toFin_eq hi⟩

/-- SBOX sends what SBOX_INV finds to the value looked for. -/
theorem sboxAt_sboxInvAt {b : Build} (hb : LegalBuild b) (x : Cell) : sboxAt b (sboxInvAt b x) = x := by
  obtain ⟨i, hi⟩ := exists_sbox hb x
  unfold sboxInvAt
  cases h : positions.find? (fun j => b.sbox[j] == x) with
  | none =>
    have := List.find?_eq_none.1 h i (mem_positions i)
    exact absurd hi (by simpa using this)
  | some j =>
    have := List.find?_some h
    have hj : (BitVec.ofNat 4 j.val).toNat = j.val := by
      rw [BitVec.toNat_ofNat]
      omega
    simp only [sboxAt]
    simpa [hj] using this

/-- SBOX_INV of an SBOX value is its input. -/
theorem sboxInvAt_sboxAt {b : Build} (hb : LegalBuild b) (x : Cell) : sboxInvAt b (sboxAt b x) = x := by
  have h := hb.1 ⟨(sboxInvAt b (sboxAt b x)).toNat, (sboxInvAt b (sboxAt b x)).isLt⟩ ⟨x.toNat, x.isLt⟩
    (sboxAt_sboxInvAt hb (sboxAt b x))
  exact BitVec.eq_of_toNat_eq (congrArg Fin.val h)

/-- P sends what P_INV finds to the position looked for. -/
theorem perm_permInvAt {b : Build} (hb : LegalBuild b) (i : Fin 16) : b.perm[permInvAt b i] = i := by
  have inj : Function.Injective (fun i : Fin 16 => b.perm[i]) := fun i j h => hb.2.1 i j h
  obtain ⟨k, hk⟩ := (Finite.injective_iff_surjective.1 inj) i
  have found : ∀ o, positions.find? (fun j => b.perm[j] == i) = o → b.perm[o.getD 0] = i := by
    intro o h
    cases o with
    | none =>
      have := List.find?_eq_none.1 h k (mem_positions k)
      exact absurd hk (by simpa using this)
    | some j => simpa using List.find?_some h
  exact found _ rfl

/-- P_INV of a P value is its position. -/
theorem permInvAt_perm {b : Build} (hb : LegalBuild b) (i : Fin 16) : permInvAt b b.perm[i] = i :=
  hb.2.1 _ _ (perm_permInvAt hb _)

@[simp] theorem gridRow_gridCell (r c : Fin 4) : gridRow (gridCell r c) = r := by
  revert r c
  decide

@[simp] theorem gridColumn_gridCell (r c : Fin 4) : gridColumn (gridCell r c) = c := by
  revert r c
  decide

@[simp] theorem gridCell_grid (i : Fin 16) : gridCell (gridRow i) (gridColumn i) = i := by
  revert i
  decide

theorem gate_xor (b : Bool) (x y : Cell) : gate b (x ^^^ y) = gate b x ^^^ gate b y := by
  cases b <;> simp [gate]

theorem gate_gate (b c : Bool) (x : Cell) : gate b (gate c x) = gate (b && c) x := by
  cases b <;> cases c <;> simp [gate]

theorem gate_xor_gate (b c : Bool) (x : Cell) : gate b x ^^^ gate c x = gate (b ^^ c) x := by
  cases b <;> cases c <;> simp [gate]

/-- Row `i` of a product applied to a column is row `i` of the first factor applied to the rows of the
second. -/
theorem mixRow_mul4 (m n : Matrix4) (i : Fin 4) (a : Fin 4 → Cell) :
    mixRow m[i] (fun k => mixRow n[k] a) = mixRow (mul4 m n)[i] a := by
  have row : (mul4 m n)[i] = #v[dot4 m[i] (column4 n 0), dot4 m[i] (column4 n 1),
      dot4 m[i] (column4 n 2), dot4 m[i] (column4 n 3)] := by
    fin_cases i <;> rfl
  have expand (x : Cell) (j : Fin 4) : gate (dot4 m[i] (column4 n j)) x =
      gate (m[i][0] && n[0][j]) x ^^^ gate (m[i][1] && n[1][j]) x ^^^ gate (m[i][2] && n[2][j]) x ^^^
        gate (m[i][3] && n[3][j]) x := by
    simp only [gate_xor_gate]
    rfl
  rw [row]
  simp only [mixRow, gate_xor, gate_gate]
  show _ = gate (dot4 m[i] (column4 n 0)) _ ^^^ gate (dot4 m[i] (column4 n 1)) _ ^^^
    gate (dot4 m[i] (column4 n 2)) _ ^^^ gate (dot4 m[i] (column4 n 3)) _
  simp only [expand]
  simp only [Fin.isValue, Fin.getElem_fin]
  ac_rfl

/-- Row `i` of the unit matrix picks cell `i`. -/
theorem mixRow_one4 (i : Fin 4) (a : Fin 4 → Cell) : mixRow one4[i] a = a i := by
  fin_cases i <;> simp [mixRow, one4, gate]

/-- Mixing with a matrix and then with another is mixing with their product. -/
theorem mixColumns_mixColumns (m n : Matrix4) (s : Cells) :
    mixColumns m (mixColumns n s) = mixColumns (mul4 m n) s := by
  apply cells_ext
  intro i
  unfold mixColumns
  simp only [cellsOf_get, gridRow_gridCell, gridColumn_gridCell]
  exact mixRow_mul4 m n (gridRow i) fun k => s[gridCell k (gridColumn i)]

/-- Mixing with the unit matrix changes nothing. -/
theorem mixColumns_one4 (s : Cells) : mixColumns one4 s = s := by
  apply cells_ext
  intro i
  unfold mixColumns
  simp only [cellsOf_get, mixRow_one4, gridCell_grid]

end Sys2Proof.Machine
end

