-- ==== Sys2Proof/Laws/PerInstr.lean ====
section
/-! SUPPORT. A family of lemmas over all instructions, one per constructor: the form of its encoding. -/

namespace Sys2Proof.Laws

open Sys2Proof

/-- A command is encoded as a write to CMD of a word with no reserved bit set and an OP that is not 0xF
(30_encoding.md R71, R75, R76); a read as no write, a plain write as a write of its own word. -/
def EncodedForm.Statement (i : Instr) : Prop :=
  (Machine.isCommand i = true →
    (encode i).we = true ∧ (encode i).addr = cmdAddr ∧ (encode i).data.extractLsb' 16 48 = 0 ∧
      (encode i).data.extractLsb' 6 6 = 0 ∧ (encode i).data.extractLsb' 12 4 ≠ 0xF) ∧
  (∀ a, i = .rd a → (encode i).we = false ∧ (encode i).addr = a) ∧
  ∀ a v, i = .wr a v → (encode i).we = true ∧ (encode i).addr = a ∧ (encode i).data = v

/-- The form of a command word whose reserved bits are 0 by its construction. -/
theorem EncodedForm.of_command {i : Instr} (hr : ∀ a, i ≠ .rd a) (hw : ∀ a v, i ≠ .wr a v)
    (h : (encode i).we = true ∧ (encode i).addr = cmdAddr ∧ (encode i).data.extractLsb' 16 48 = 0 ∧
      (encode i).data.extractLsb' 6 6 = 0 ∧ (encode i).data.extractLsb' 12 4 ≠ 0xF) :
    EncodedForm.Statement i :=
  ⟨fun _ => h, fun a ha => absurd ha (hr a), fun a v ha => absurd ha (hw a v)⟩

/-- Every operand of a command leaves the reserved bits 0. -/
theorem EncodedForm.immediate (k : BitVec 6) :
    ∀ op ∈ [0x7#4, 0x8#4, 0xA#4, 0xB#4, 0xC#4],
      (commandWord op k).extractLsb' 16 48 = 0 ∧ (commandWord op k).extractLsb' 6 6 = 0 ∧
        (commandWord op k).extractLsb' 12 4 ≠ 0xF := by
  revert k
  decide

theorem EncodedForm.rd (a : Addr) : EncodedForm.Statement (.rd a) := by
  refine ⟨fun h => ?_, fun b hb => ?_, fun b v hb => ?_⟩
  · simp [Machine.isCommand] at h
  · cases hb
    exact ⟨rfl, rfl⟩
  · cases hb

theorem EncodedForm.wr (a : Addr) (v : Word64) : EncodedForm.Statement (.wr a v) := by
  refine ⟨fun h => ?_, fun b hb => ?_, fun b w hb => ?_⟩
  · simp [Machine.isCommand] at h
  · cases hb
  · cases hb
    exact ⟨rfl, rfl, rfl⟩

theorem EncodedForm.nop : EncodedForm.Statement .nop :=
  EncodedForm.of_command (by simp) (by simp) (by decide)

theorem EncodedForm.sub : EncodedForm.Statement .sub :=
  EncodedForm.of_command (by simp) (by simp) (by decide)

theorem EncodedForm.isub : EncodedForm.Statement .isub :=
  EncodedForm.of_command (by simp) (by simp) (by decide)

theorem EncodedForm.perm : EncodedForm.Statement .perm :=
  EncodedForm.of_command (by simp) (by simp) (by decide)

theorem EncodedForm.iperm : EncodedForm.Statement .iperm :=
  EncodedForm.of_command (by simp) (by simp) (by decide)

theorem EncodedForm.mix : EncodedForm.Statement .mix :=
  EncodedForm.of_command (by simp) (by simp) (by decide)

theorem EncodedForm.imix : EncodedForm.Statement .imix :=
  EncodedForm.of_command (by simp) (by simp) (by decide)

theorem EncodedForm.addc (k : BitVec 6) : EncodedForm.Statement (.addc k) :=
  EncodedForm.of_command (by simp) (by simp) ⟨rfl, rfl, EncodedForm.immediate k 0x7 (by decide)⟩

theorem EncodedForm.addtk (k : BitVec 6) : EncodedForm.Statement (.addtk k) :=
  EncodedForm.of_command (by simp) (by simp) ⟨rfl, rfl, EncodedForm.immediate k 0x8 (by decide)⟩

theorem EncodedForm.tkupd : EncodedForm.Statement .tkupd :=
  EncodedForm.of_command (by simp) (by simp) (by decide)

theorem EncodedForm.tkgen (n : BitVec 6) : EncodedForm.Statement (.tkgen n) :=
  EncodedForm.of_command (by simp) (by simp) ⟨rfl, rfl, EncodedForm.immediate n 0xA (by decide)⟩

theorem EncodedForm.round (r : BitVec 6) : EncodedForm.Statement (.round r) :=
  EncodedForm.of_command (by simp) (by simp) ⟨rfl, rfl, EncodedForm.immediate r 0xB (by decide)⟩

theorem EncodedForm.iround (r : BitVec 6) : EncodedForm.Statement (.iround r) :=
  EncodedForm.of_command (by simp) (by simp) ⟨rfl, rfl, EncodedForm.immediate r 0xC (by decide)⟩

theorem EncodedForm.enc : EncodedForm.Statement .enc :=
  EncodedForm.of_command (by simp) (by simp) (by decide)

theorem EncodedForm.dec : EncodedForm.Statement .dec :=
  EncodedForm.of_command (by simp) (by simp) (by decide)

end Sys2Proof.Laws
end

