-- ==== Sys2Proof/Laws/Run.lean ====
section
/-! SUPPORT. Sequences: one instruction after the other, and steps of the core one after the other. -/

namespace Sys2Proof.Machine

open Sys2Proof

theorem execAll_nil (s : State) : execAll [] s = .next s := rfl

/-- An instruction that completes hands its state to the rest of the sequence. -/
theorem execAll_cons {i : Instr} {s t : State} (h : exec i s = .next t) (l : List Instr) :
    execAll (i :: l) s = execAll l t := by
  simp only [execAll, h]

/-- A sequence that completes hands its state to the one appended to it. -/
theorem execAll_append {l : List Instr} {s t : State} (h : execAll l s = .next t) (m : List Instr) :
    execAll (l ++ m) s = execAll m t := by
  induction l generalizing s with
  | nil => cases h; rfl
  | cons i l ih =>
    cases he : exec i s with
    | next u =>
      rw [execAll_cons he] at h
      rw [List.cons_append, execAll_cons he]
      exact ih h
    | fault r => simp [execAll, he] at h
    | refused r => simp [execAll, he] at h

/-- A step that completes hands its state to the steps after it. -/
theorem run_next {M : Host.Core} {s t : M.State} (h : M.step s = .next t) (k : Nat) :
    M.run (k + 1) s = M.run k t := by
  simp only [Host.Core.run, h]

end Sys2Proof.Machine
end

