-- ==== Sys2Proof/Laws/Stream.lean ====
section
/-! SUPPORT. The round-tweakey stream, the machine's one array: its canonical form holds at reset, every
operation that writes it keeps it, and in it every entry at or beyond RTK_LEN reads as zeros. -/

namespace Sys2Proof.Machine

open Sys2Proof

/-- A schedule has as many entries as were asked for. -/
@[simp] theorem schedule_length (b : Build) (w : TkWords) (n : Nat) : (schedule b w n).length = n := by
  induction n generalizing w with
  | zero => rfl
  | succ n ih => simp [schedule, ih]

/-- The stream is canonical at reset. -/
theorem streamCanonical_resetOf (b : Build) : StreamCanonical (State.resetOf b) :=
  ⟨by simp, Nat.zero_le _, by simp⟩

/-- The write that TKGEN makes, the only one to the stream, leaves it canonical whatever it was. -/
theorem streamCanonical_tkgen (s : State) (n : Nat) (h : n ≤ s.build.nMax) :
    StreamCanonical (s.withStream
      (schedule s.build s.tkWords n ++ List.replicate (s.build.nMax - n) zeroTweakey) n) := by
  refine ⟨?_, h, ?_⟩
  · show (schedule s.build s.tkWords n ++ List.replicate (s.build.nMax - n) zeroTweakey).length =
      s.build.nMax
    rw [List.length_append, schedule_length, List.length_replicate]
    omega
  · exact List.drop_left' (schedule_length s.build s.tkWords n)

/-- A state with the same stream, length and build has it canonical too. -/
theorem streamCanonical_congr {s t : State} (h : StreamCanonical s) (rtk : t.rtk = s.rtk)
    (len : t.rtkLen = s.rtkLen) (build : t.build = s.build) : StreamCanonical t := by
  unfold StreamCanonical
  rw [rtk, len, build]
  exact h

/-- In a canonical stream an entry at or beyond RTK_LEN is zero. -/
theorem rtkAt_beyond {s : State} (h : StreamCanonical s) {k : Nat} (hk : s.rtkLen ≤ k) :
    s.rtkAt k = zeroTweakey := by
  have entry : s.rtk[k]? = (s.rtk.drop s.rtkLen)[k - s.rtkLen]? := by
    rw [List.getElem?_drop]
    congr 1
    omega
  unfold State.rtkAt
  rw [List.getD_eq_getElem?_getD, entry, h.2.2, List.getElem?_replicate]
  split <;> rfl

end Sys2Proof.Machine
end

