-- ==== Sys2Proof/Tests/Slice0.lean ====
section
/-! SUPPORT. The model's own tests. Expected values come from spec/95_test_vectors.md (the section is
named with each test) or from the encodings of spec/30_encoding.md R70 to R73, written out by hand. The
theorems `witness_…` show values that meet the hypotheses of the statement they name, at the edges of
each clause. -/

namespace Sys2Proof.Tests

open Sys2Proof Sys2Proof.Machine

set_option maxRecDepth 8000

/-! ### Helpers -/

/-- A reset machine with cipher state `v`. -/
def withText (v : Word64) : State := State.reset.withSt (unpack16 v)

/-- Stream S41 (95_test_vectors.md section 3.3), each entry as its 8 hexadecimal digits. -/
def s41 : List (BitVec 32) :=
  [0xD8889E0B, 0x91D82D0B, 0x39AED453, 0x1EFFCFEB, 0xE7BA6E40, 0x4717511A, 0x7380D67D,
   0x29941CB5, 0x273A11B8, 0x38FDF21A, 0x8BBE830E, 0x6C8B61CA, 0xC9B8D3E1, 0xCF8105C5,
   0x97BDBBA2, 0x9FA15D61, 0x61EC888D, 0x912D4073, 0x43AAA70D, 0x12D86F1C, 0x006DDE6D,
   0xA6100E63, 0xDB15645A, 0xF9621281, 0x24CD8F49, 0xA429881B, 0x043FB1E8, 0x40F0717F,
   0x405209E5, 0xBA11D0BD, 0x8D9B08E8, 0xD92B08D1, 0xA3D35E49, 0xF1CBEFFE, 0xBE604AE7,
   0x145A1717, 0x87DD7063, 0x9215B4C9, 0x3218BA17, 0xF3FA1D28, 0xB88E0E3B]

/-- A stream entry from its 8 hexadecimal digits, cell 0 first. -/
def entryOf (v : BitVec 32) : RoundTweakey := tweakeyOf fun i => v.extractLsb' (28 - 4 * i.val) 4

/-- A machine in `mode` with CFG = (r, ri, r0), stream S41 with its first `len` entries valid, and cipher
state `v`. -/
def rig (mode : RcIndexMode) (r ri r0 : BitVec 6) (len : Nat) (v : Word64) : State :=
  { State.reset with
    st := unpack16 v
    build := { defaultBuild with rcMode := mode }
    cfg := { r := r, ri := ri, r0 := r0 }
    rtk := (s41.take len).map entryOf ++ List.replicate (62 - len) zeroTweakey
    rtkLen := len }

/-- The same in STREAM mode with a stream of zeros, where only lengths matter. -/
def zeroRig (r ri r0 : BitVec 6) (len : Nat) : State :=
  { State.reset with cfg := { r := r, ri := ri, r0 := r0 }, rtkLen := len }

/-- The machine of section 2.5 and 2.7: each tweakey word is 0123456789abcdef. -/
def countingTweakey : State :=
  { State.reset with
    tk1 := unpack16 0x0123456789ABCDEF
    tk2 := unpack16 0x0123456789ABCDEF
    tk3 := unpack16 0x0123456789ABCDEF }

/-- A value of the next state. -/
def look {α : Type} (f : State → α) (o : Host.Outcome State Fault Refusal) : Option α :=
  match o with
  | .next t => some (f t)
  | .fault _ => none
  | .refused _ => none

/-- ST and ERR of the next state. -/
def textErr (o : Host.Outcome State Fault Refusal) : Option (Word64 × BitVec 4) :=
  look (fun t => (pack16 t.st, t.status.err)) o

/-- The last word returned to the host. -/
def lastWord (o : Host.Outcome State Fault Refusal) : Option Word64 :=
  (look (fun t => t.responses.getLast?) o).join

/-! ### Form -/

theorem test_wellFormed_refuses_command_word : (Instr.wr 0x05 0x1000).wellFormed = false := by decide

theorem test_wellFormed_takes_other_words :
    (Instr.wr 0x05 0x1001).wellFormed = true ∧ (Instr.wr 0x00 0x1000).wellFormed = true := by decide

/-! ### Decoding: every constructor's word, written out from R70 and R73 -/

theorem test_decode_bus : decodeTableWord 80 0x0_06_0000000000000000 = some (.rd 0x06) ∧
    decodeTableWord 80 0x1_04_00000000001B070E = some (.wr 0x04 0x1B070E) := by decide

theorem test_decode_plain : decodeTableWord 64 0x0000 = some .nop ∧ decodeTableWord 64 0x1000 = some .sub ∧
    decodeTableWord 64 0x2000 = some .isub ∧ decodeTableWord 64 0x3000 = some .perm ∧
    decodeTableWord 64 0x4000 = some .iperm ∧ decodeTableWord 64 0x5000 = some .mix ∧
    decodeTableWord 64 0x6000 = some .imix ∧ decodeTableWord 64 0x9000 = some .tkupd ∧
    decodeTableWord 64 0xD000 = some .enc ∧ decodeTableWord 64 0xE000 = some .dec := by decide

theorem test_decode_immediate : decodeTableWord 64 0x7022 = some (.addc 34) ∧
    decodeTableWord 64 0x8022 = some (.addtk 34) ∧ decodeTableWord 64 0xA029 = some (.tkgen 41) ∧
    decodeTableWord 64 0xB007 = some (.round 7) ∧ decodeTableWord 64 0xC007 = some (.iround 7) ∧
    decodeTableWord 64 0xB03F = some (.round 63) := by decide

theorem test_decode_refuses : decodeTableWord 64 0xF000 = none ∧ decodeTableWord 64 0x10000 = none ∧
    decodeTableWord 64 0x1040 = none ∧ decodeTableWord 64 0x0001 = none := by decide

theorem test_placed_word_runs :
    textErr (step (State.reset.withFetchWord 64 0x1000)) = some (0xCCCCCCCCCCCCCCCC, 0) := by decide

/-! ### Tables (00_scope.md R5 to R10; 95_test_vectors.md section 2.1) -/

theorem test_sbox_inv_table : (List.range 16).map (fun x => sboxInvAt defaultBuild (BitVec.ofNat 4 x)) =
    [0x3, 0x4, 0x6, 0x8, 0xC, 0xA, 0x1, 0xE, 0x9, 0x2, 0x5, 0x7, 0x0, 0xB, 0xD, 0xF] := by decide

theorem test_perm_inv_table : positions.map (fun i => (permInvAt defaultBuild i).val) =
    [0, 1, 2, 3, 5, 6, 7, 4, 10, 11, 8, 9, 15, 12, 13, 14] := by decide

theorem test_mixm_inv_table : mixmInv defaultBuild =
    #v[#v[false, true, false, false], #v[false, true, true, true], #v[false, true, false, true],
       #v[true, false, false, true]] := by decide

/-- The generator of the default RC (00_scope.md R8). -/
def nextRc (rc : BitVec 6) : BitVec 6 :=
  (rc <<< 1) ||| (BitVec.ofBool (rc.getLsbD 5 ^^ rc.getLsbD 4 ^^ true)).setWidth 6

theorem test_rc_table : defaultRc[0] = nextRc 0 ∧
    (List.range 61).all (fun i => defaultRc.toList.getD (i + 1) 0 == nextRc (defaultRc.toList.getD i 0)) = true := by
  decide

/-! ### Nibble primitives (sections 2.1 to 2.5) -/

theorem test_nop_clears_err :
    look (fun t => (t.status, t.st)) (exec .nop { withText 0x12 with status := { err := 6, sticky := true } }) =
      some ({ err := 0, sticky := true }, unpack16 0x12) := by decide

theorem test_sub : textErr (exec .sub (withText 0x0123456789ABCDEF)) = some (0xC6901A2B385D4E7F, 0) := by
  decide

theorem test_isub : textErr (exec .isub (withText 0x0123456789ABCDEF)) = some (0x3468CA1E92570BDF, 0) := by
  decide

theorem test_perm : textErr (exec .perm (withText 0x0123456789ABCDEF)) = some (0x01237456AB89DEFC, 0) := by
  decide

theorem test_iperm : textErr (exec .iperm (withText 0x0123456789ABCDEF)) = some (0x01235674AB89FCDE, 0) := by
  decide

theorem test_mix : textErr (exec .mix (withText 0x0123456789ABCDEF)) = some (0x45670123CCCC8888, 0) := by
  decide

theorem test_mix_unit_vector : textErr (exec .mix (withText 0x0000000010000000)) = some (0x1000000010001000, 0) := by
  decide

theorem test_imix : textErr (exec .imix (withText 0x0123456789ABCDEF)) = some (0x456701238888CCCC, 0) := by
  decide

theorem test_addc : textErr (exec (.addc 5) (withText 0)) = some (0xE000300020000000, 0) ∧
    textErr (exec (.addc 61) (withText 0xFFFFFFFFFFFFFFFF)) = some (0xFFFFDFFFDFFFFFFF, 0) := by decide

theorem test_addc_range : textErr (exec (.addc 62) (withText 7)) = some (7, 2) := by decide

theorem test_addtk :
    textErr (exec (.addtk 0)
      { withText 0xFFFFFFFFFFFFFFFF with rtk := [#v[0, 1, 2, 3, 4, 5, 6, 7]], rtkLen := 1 }) =
      some (0xFEDCBA98FFFFFFFF, 0) := by decide

theorem test_addtk_short : textErr (exec (.addtk 0) (withText 7)) = some (7, 3) := by decide

/-! ### Tweakey schedule (sections 2.6 and 2.7) -/

theorem test_lfsr_tables :
    (List.range 16).map (fun x => (lfsrA (BitVec.ofNat 4 x)).toNat) =
      [0x0, 0x2, 0x4, 0x6, 0x9, 0xB, 0xD, 0xF, 0x1, 0x3, 0x5, 0x7, 0x8, 0xA, 0xC, 0xE] ∧
    (List.range 16).map (fun x => (lfsrB (BitVec.ofNat 4 x)).toNat) =
      [0x0, 0x8, 0x1, 0x9, 0x2, 0xA, 0x3, 0xB, 0xC, 0x4, 0xD, 0x5, 0xE, 0x6, 0xF, 0x7] := by decide

theorem test_tkupd :
    look (fun t => (pack16 t.tk1, pack16 t.tk2, pack16 t.tk3)) (exec .tkupd countingTweakey) =
      some (0x9F8DAECB01234567, 0x3E1A5C8701234567, 0x47C6DFE501234567) := by decide

theorem test_tkgen :
    look (fun t => (t.rtkLen, (t.rtk.take 4).map pack8, t.rtk.length)) (exec (.tkgen 3) countingTweakey) =
      some (3, [0x01234567, 0xE6512DA9, 0xB30478FC, 0], 62) := by decide

theorem test_tkgen_range :
    look (fun t => (t.rtkLen, t.status.err)) (exec (.tkgen 63) (zeroRig 0 0 0 9)) = some (9, 2) := by decide

/-! ### Round engine (sections 2.8 and 2.9) -/

theorem test_round_skips :
    textErr (exec (.round 7) (rig .stream 14 7 27 41 0x530C61D35E8663C3)) = some (0x48217EA444474C23, 0) := by
  decide

theorem test_round_branch_constant :
    textErr (exec (.round 7) (rig .branch 14 7 27 41 0x530C61D35E8663C3)) = some (0x9821AEA447479C23, 0) := by
  decide

theorem test_iround_skips :
    textErr (exec (.iround 7) (rig .stream 14 7 27 41 0x48217EA444474C23)) = some (0x530C61D35E8663C3, 0) := by
  decide

theorem test_round_checks :
    textErr (exec (.round 14) (rig .stream 14 7 27 20 1)) = some (1, 2) ∧
    textErr (exec (.iround 7) (rig .stream 14 7 27 20 1)) = some (1, 3) := by decide

theorem test_enc_forked :
    textErr (exec .enc (rig .stream 14 7 27 41 0x530C61D35E8663C3)) = some (0x46F1FE494232BB3B, 0) := by decide

theorem test_enc_short : textErr (exec .enc (rig .stream 14 14 27 14 5)) = some (5, 3) := by decide

theorem test_dec_branch :
    textErr (exec .dec (rig .branch 14 7 27 41 0x2B7AC1E2BC97E08D)) = some (0x530C61D35E8663C3, 0) := by decide

theorem test_dec_short : textErr (exec .dec (rig .stream 14 7 27 40 5)) = some (5, 3) := by decide

/-! ### Bus (section 2.10) -/

theorem test_rd : lastWord (exec (.rd 0x06) { withText 0 with status := { err := 6, sticky := true } }) =
      some 0x106 ∧ lastWord (exec (.rd 0x08) State.reset) = some 0x3E ∧
    lastWord (exec (.rd 0x08) (rig .branch 0 0 0 0 0)) = some 0x13E ∧
    lastWord (exec (.rd 0x20) State.reset) = some 0 := by decide

theorem test_rd_data : lastWord (exec (.rd 0x43) (rig .stream 14 7 27 4 0)) = some 0x1EFFCFEB ∧
    lastWord (exec (.rd 0x04) (zeroRig 14 7 27 0)) = some 0x1B070E ∧
    lastWord (exec (.rd 0x00) (withText 0x530C61D35E8663C3)) = some 0x530C61D35E8663C3 := by decide

theorem test_wr_cfg :
    look (fun t => (t.cfg, t.status)) (exec (.wr 0x04 0xFFFFFFFFFF00C000) (zeroRig 14 7 27 0)) =
      some ({ r := 0, ri := 0, r0 := 0 }, { err := 0, sticky := false }) ∧
    look (fun t => (t.cfg, t.status)) (exec (.wr 0x04 0x170028) (zeroRig 14 7 27 0)) =
      some ({ r := 14, ri := 7, r0 := 27 }, { err := 4, sticky := true }) := by decide

theorem test_wr_errors :
    look (fun t => (t.status.err, t.rtkLen)) (exec (.wr 0x07 5) State.reset) = some (5, 0) ∧
    look (fun t => t.status.err) (exec (.wr 0x20 1) State.reset) = some 6 ∧
    look (fun t => t.status.err) (exec (.wr 0x05 0xF000) State.reset) = some 1 := by decide

/-! ### Assembly lines (30_encoding.md R78, R79; 95_test_vectors.md section 5) -/

theorem test_assemble_lines :
    assembleText 62 "WR @0x20, 1".toList = some [{ we := true, addr := 0x20, data := 1 }] ∧
    assembleText 62 "TKGEN 41  ; comment".toList = some [{ we := true, addr := 0x05, data := 0xA029 }] ∧
    assembleText 62 "RD RTK[3]".toList = some [{ we := false, addr := 0x43, data := 0 }] ∧
    assembleText 62 "ADDC 64".toList = none := by decide

theorem test_assemble_pseudo :
    assembleText 62 "SETCFG 14, 7, 27".toList = some [{ we := true, addr := 0x04, data := 0x1B070E }] ∧
    assembleText 62 "RNDMAN 34, 33".toList =
      some [commandTx 1 0, commandTx 7 33, commandTx 8 34, commandTx 3 0, commandTx 5 0] ∧
    assembleText 62 "LDST 0x530C_61D3_5E86_63C3".toList =
      some [{ we := true, addr := 0x00, data := 0x530C61D35E8663C3 }] := by decide

/-! ### Witnesses: the hypotheses of the statements can be met -/

/-- Every statement whose hypothesis is a legal build. -/
theorem witness_legalBuild : LegalBuild defaultBuild := by
  refine ⟨?_, ?_, ?_, ?_, ?_, ?_, ?_⟩ <;> decide

theorem witness_inv (len : Nat) (h : len ≤ 62) (r ri r0 : BitVec 6) (hc : CfgLegal 62 { r := r, ri := ri, r0 := r0 }) :
    Machine.Inv (zeroRig r ri r0 len) :=
  ⟨witness_legalBuild, ⟨rfl, h, List.drop_replicate⟩, hc, Nat.zero_le 6⟩

/-- EveryStepKeepsTheInvariant, EntriesBeyondTheStreamReadZero, RoundByHandEqualsTheRound. -/
theorem witness_inv_forked : Machine.Inv (zeroRig 14 7 27 41) ∧ (zeroRig 14 7 27 41).rtkLen ≤ 41 ∧
    61 < (zeroRig 14 7 27 41).build.nMax ∧
    (13#6).toNat < (zeroRig 14 7 27 41).cfg.r.toNat ∧
    streamIndex (zeroRig 14 7 27 41).cfg 13 < (zeroRig 14 7 27 41).rtkLen :=
  ⟨witness_inv 41 (by decide) 14 7 27 (by decide), by decide⟩

/-- ResetEventResetsTheCore, IdleCoreHoldsItsState, EveryStepKeepsTheInvariant. -/
theorem witness_events :
    ((zeroRig 14 7 27 41).withPending [.reset]).pending = .reset :: [] ∧
    ((zeroRig 14 7 27 41).withPending [.resetDuring (commandTx 0xD 0)]).pending =
      .resetDuring (commandTx 0xD 0) :: [] ∧
    State.reset.pending = [] ∧ look (fun t => decide (t = State.reset)) (step State.reset) = some true := by
  decide

/-- StepRunsTheDecodedTransaction, HostProgramRunsInIssueOrder. -/
theorem witness_transactions :
    (State.reset.withPending [.transaction (encode (.tkgen 41))]).pending =
      .transaction (encode (.tkgen 41)) :: [] ∧ (Instr.tkgen 41).wellFormed = true ∧
    decodeTableWord 64 0xA029 = some (.tkgen 41) ∧
    (State.reset.withPending ([encode (.tkgen 41), encode (.rd 7)].map .transaction)).pending =
      [encode (.tkgen 41), encode (.rd 7)].map .transaction := by decide

/-- OnlyNamedInstructionsWriteEachRegister: a well-formed instruction completes and changes each register. -/
theorem witness_writes :
    (Instr.wr 0x00 5).wellFormed = true ∧
    look (fun t => decide (t.st ≠ zeroCells)) (exec (.wr 0x00 5) State.reset) = some true ∧
    look (fun t => decide (t.tk1 ≠ zeroCells)) (exec (.wr 0x01 5) State.reset) = some true ∧
    look (fun t => decide (t.tk2 ≠ zeroCells)) (exec (.wr 0x02 5) State.reset) = some true ∧
    look (fun t => decide (t.tk3 ≠ zeroCells)) (exec (.wr 0x03 5) State.reset) = some true ∧
    look (fun t => decide (t.cfg ≠ State.reset.cfg)) (exec (.wr 0x04 5) State.reset) = some true ∧
    look (fun t => decide (t.rtkLen ≠ 0)) (exec (.tkgen 62) State.reset) = some true ∧
    look (fun t => decide (t.responses ≠ [])) (exec (.rd 0x00) State.reset) = some true := by decide

/-- CommandDecoderAnswersExactlyCommandWords, IllegalCommandWordsRaiseOnly, ErrorsAreReportedByPriority,
NopOnlySetsErrOk, CmdWriteOfACommandWordIsTheCommand: a word for each clause. -/
theorem witness_command_words :
    isCommandWord 0x703F = true ∧
    ((0x1040 : Word64).extractLsb' 6 6 ≠ 0 ∧ (0x8000000000000000 : Word64).extractLsb' 16 48 ≠ 0) ∧
    (0xF03F : Word64).extractLsb' 12 4 = 0xF ∧ (0xF03F : Word64).extractLsb' 16 48 = 0 ∧
    (0xF03F : Word64).extractLsb' 6 6 = 0 ∧
    (0x1001 : Word64).extractLsb' 12 4 ≠ 0xF ∧ isCommandWord 0x1001 = false ∧
    (0x1001 : Word64).extractLsb' 12 4 ∈ ([0x0, 0x1, 0x2, 0x3, 0x4, 0x5, 0x6, 0x9, 0xD, 0xE] : List (BitVec 4)) ∧
    (0x1001 : Word64).extractLsb' 0 6 ≠ 0 ∧ isCommand .dec = true ∧
    (0x0040 : Word64).extractLsb' 12 4 = 0 ∧ (0x0040 : Word64) ≠ 0 := by decide

/-- ReadReturnsTheRegistersWord, ReadOnlyAndUnmappedWritesRaiseOnly: addresses at the edges of each clause. -/
theorem witness_addresses :
    (0x40#8).toNat = 0x40 + 0 ∧ (0x7D#8).toNat = 0x40 + 61 ∧ 61 < State.reset.build.nMax ∧
    (0x7D#8).toNat < 0x40 + State.reset.build.nMax ∧
    0x09 ≤ (0x09#8).toNat ∧ (0x3F#8).toNat < 0x40 ∧ 0x40 + State.reset.build.nMax ≤ (0x7E#8).toNat ∧
    0x40 + State.reset.build.nMax ≤ (0xFF#8).toNat := by decide

/-- CfgWriteIsValidated: legal at the edge (62 of 62; RI = R), illegal just beyond. -/
theorem witness_cfg : CfgLegal 62 (cfgOfWord 0x3E) ∧ CfgLegal 62 (cfgOfWord 0x1B0E0E) ∧
    ¬ CfgLegal 62 (cfgOfWord 0x170028) ∧ ¬ CfgLegal 62 (cfgOfWord 0x0F0E) := by decide

/-- StickyIsClearedOnlyByStatusWriteOrReset, StepThatClearsStickyTookStatusWriteOrReset,
FailingWriteChangesOnlyStatus, EveryWriteAssignsErrOnce. -/
theorem witness_status :
    (∀ a : Addr, Instr.addc 62 ≠ .rd a) ∧ (∀ v : Word64, Instr.addc 62 ≠ .wr 0x06 v) ∧
    look (fun t => t.status.sticky) (exec (.wr 0x06 0x100) (raiseError .range State.reset)) = some false ∧
    (raiseError .range State.reset).status.sticky = true ∧
    look (fun t => t.status.sticky)
      (step ((raiseError .range State.reset).withPending [.transaction (encode (.wr 0x06 0x100))])) =
      some false ∧
    look (fun t => decide (t.status.err ≠ 0)) (exec (.addc 62) State.reset) = some true :=
  ⟨fun _ => Instr.noConfusion, fun _ => Instr.noConfusion, by decide⟩

/-- ErrorsAreReportedByPriority, RoundAppliesOneForwardRound, IroundAppliesOneInverseRound: round 13 is
the last, 14 the first out of range, and the stream of 40 is one entry short. -/
theorem witness_rounds :
    (13#6).toNat < (zeroRig 14 7 27 41).cfg.r.toNat ∧ (zeroRig 14 7 27 41).cfg.r.toNat ≤ (14#6).toNat ∧
    (40 = if (13#6).toNat < (zeroRig 14 7 27 41).cfg.ri.toNat then (13#6).toNat
      else (13#6).toNat + (zeroRig 14 7 27 41).cfg.r0.toNat) ∧
    (40 = if (zeroRig 14 7 27 41).build.rcMode = .stream then 40 else (13#6).toNat) ∧
    40 < (zeroRig 14 7 27 41).rtkLen ∧ (zeroRig 14 7 27 40).rtkLen ≤ 40 := by decide

/-- AddcXorsTheRoundConstant, AddtkXorsTheStreamEntry, TkgenWritesTheStream, a non-zero IMM6 and the
assembler's immediate: each side of the edge. -/
theorem witness_immediates : (61#6).toNat < 62 ∧ 62 ≤ (62#6).toNat ∧
    (40#6).toNat < (zeroRig 0 0 0 41).rtkLen ∧ (zeroRig 0 0 0 41).rtkLen ≤ (41#6).toNat ∧
    (62#6).toNat ≤ State.reset.build.nMax ∧ State.reset.build.nMax < (63#6).toNat ∧
    (1#6 : BitVec 6) ≠ 0 ∧ 63 ≤ 63 ∧ 63 < 64 := by decide

/-- StreamEntryIsTheXorAfterTkupds, ScheduleHasThePrefixProperty, RoundIndicesStayInRange,
TweakeyChangesLeaveTheStreamStale. -/
theorem witness_schedule : ((0x03 : Addr) = 0x01 ∨ (0x03 : Addr) = 0x02 ∨ (0x03 : Addr) = 0x03) ∧
    61 < (62#6).toNat ∧ (62#6).toNat ≤ State.reset.build.nMax ∧ 3 ≤ 41 ∧
    CfgLegal defaultBuild.nMax { r := 62, ri := 0, r0 := 0 } ∧ 61 < (62#6).toNat := by decide

/-- EncAppliesTheRoundsInOrder, DecAppliesTheInverseRoundsInReverse, EncryptionAndDecryptionRoundTrip,
EngineRunsDecomposeIntoRounds, EncIsABijectionOfTheCipherState: long enough by nothing, short by one. -/
theorem witness_engine : LegalBuild (zeroRig 14 7 27 41).build ∧
    (zeroRig 14 7 27 41).cfg.r.toNat + (zeroRig 14 7 27 41).cfg.r0.toNat ≤ (zeroRig 14 7 27 41).rtkLen ∧
    (zeroRig 14 7 27 40).rtkLen < (zeroRig 14 7 27 40).cfg.r.toNat + (zeroRig 14 7 27 40).cfg.r0.toNat :=
  ⟨witness_legalBuild, by decide⟩

/-- ForkWithoutSkipHasNoEffect: each disjunct, with a stream long enough. -/
theorem witness_fork :
    (zeroRig 14 14 27 41).cfg.ri = (zeroRig 14 14 27 41).cfg.r ∧
    (zeroRig 14 14 27 41).cfg.r.toNat + (zeroRig 14 14 27 41).cfg.r0.toNat ≤ (zeroRig 14 14 27 41).rtkLen ∧
    (zeroRig 14 7 0 14).cfg.r0 = 0 ∧
    (zeroRig 14 7 0 14).cfg.r.toNat + (zeroRig 14 7 0 14).cfg.r0.toNat ≤ (zeroRig 14 7 0 14).rtkLen := by
  decide

/-- AssemblyLinesAreTheirTransactions, PseudoInstructionsSetTheirRegisters. -/
theorem witness_assembler : regAddr 62 (.rtk 61) = some 0x7D ∧ regAddr 62 (.rtk 62) = none ∧
    regAddr 62 .status = some 0x06 ∧ CfgLegal State.reset.build.nMax { r := 14, ri := 7, r0 := 27 } := by
  decide

end Sys2Proof.Tests
end

section
/-! The state family: a write to CFG, on each side of the legality of 10_state.md R26. -/

namespace Sys2Proof.Machine

open Sys2Proof

/-- R26, a legal word: the three fields are stored and ERR is OK. -/
theorem writeCfg_of_legal {v : Word64} {s : State} (h : CfgLegal s.build.nMax (cfgOfWord v)) :
    writeCfg v s = .next { s with cfg := cfgOfWord v, status := okStatus s.status } := by
  rw [writeCfg, if_pos h]
  rfl

/-- R26, an illegal word: CFG_INVALID is raised over the state before the write. -/
theorem writeCfg_of_not_legal {v : Word64} {s : State} (h : ¬ CfgLegal s.build.nMax (cfgOfWord v)) :
    writeCfg v s = .next (raiseError .cfgInvalid s) := by
  rw [writeCfg, if_neg h, finishWrite_error]

/-- Settles O20: address 0x04 is CFG, and the write splits on the legality of the word's fields. -/
theorem cfgWriteIsValidated : Obligations.CfgWriteIsValidated := by
  intro v s
  rw [exec_wr_cfg]
  exact ⟨fun legal => writeCfg_of_legal legal, fun illegal => writeCfg_of_not_legal illegal⟩

end Sys2Proof.Machine
end

section
/-! The memory family: the address map from 0x09 up, then reads and writes register by register
(20_memory.md R51 to R55, R61, R64). -/

namespace Sys2Proof.Machine

open Sys2Proof

/-- R51: past the nine named registers an address is an entry of the stream or unmapped. -/
theorem regAt_of_nine_le {nMax : Nat} {a : Addr} (h : 0x09 ≤ a.toNat) :
    regAt nMax a =
      if 0x40 ≤ a.toNat ∧ a.toNat < 0x40 + nMax then .rtk (a.toNat - 0x40) else .unmapped := by
  unfold regAt
  split
  case h_10 => rfl
  all_goals omega

/-- R51: `0x40 + k` with `k < N_MAX` is entry `k`. -/
theorem regAt_entry {nMax k : Nat} {a : Addr} (ha : a.toNat = 0x40 + k) (hk : k < nMax) :
    regAt nMax a = .rtk k := by
  rw [regAt_of_nine_le (by omega), if_pos (by omega), ha, Nat.add_sub_cancel_left]

/-- R51: the gap below the stream and everything past its end are unmapped. -/
theorem regAt_unmapped {nMax : Nat} {a : Addr} (named : 0x09 ≤ a.toNat)
    (outside : a.toNat < 0x40 ∨ 0x40 + nMax ≤ a.toNat) : regAt nMax a = .unmapped := by
  rw [regAt_of_nine_le named, if_neg (by omega)]

/-! ### Reads -/

theorem busRead_st (s : State) : busRead s 0x00 = pack16 s.st := rfl
theorem busRead_tk1 (s : State) : busRead s 0x01 = pack16 s.tk1 := rfl
theorem busRead_tk2 (s : State) : busRead s 0x02 = pack16 s.tk2 := rfl
theorem busRead_tk3 (s : State) : busRead s 0x03 = pack16 s.tk3 := rfl
theorem busRead_cfg (s : State) : busRead s 0x04 = cfgWord s.cfg := rfl
theorem busRead_cmd (s : State) : busRead s 0x05 = 0 := rfl
theorem busRead_status (s : State) : busRead s 0x06 = statusWord s.status := rfl
theorem busRead_rtkLen (s : State) : busRead s 0x07 = BitVec.ofNat 64 s.rtkLen := rfl
theorem busRead_hwcfg (s : State) : busRead s 0x08 = hwcfgWord s.build := rfl

/-- R55: an entry's address reads as the packed entry. -/
theorem busRead_entry {s : State} {k : Nat} {a : Addr} (ha : a.toNat = 0x40 + k)
    (hk : k < s.build.nMax) : busRead s a = pack8 (s.rtkAt k) := by
  rw [busRead, regAt_entry ha hk]

/-- R64: an unmapped address reads as 0. -/
theorem busRead_unmapped {s : State} {a : Addr} (named : 0x09 ≤ a.toNat)
    (outside : a.toNat < 0x40 ∨ 0x40 + s.build.nMax ≤ a.toNat) : busRead s a = 0 := by
  rw [busRead, regAt_unmapped named outside]

/-- Settles O16: each address selects its register, and the laws of that register's word give the fields. -/
theorem readReturnsTheRegistersWord : Obligations.ReadReturnsTheRegistersWord := by
  intro a s
  refine ⟨?st, ?tk1, ?tk2, ?tk3, ?cfg, ?cmd, ?status, ?rtkLen, ?hwcfg, ?entry, ?unmapped⟩
  case st => rintro rfl; rw [busRead_st]; exact pack16_extract s.st
  case tk1 => rintro rfl; rw [busRead_tk1]; exact pack16_extract s.tk1
  case tk2 => rintro rfl; rw [busRead_tk2]; exact pack16_extract s.tk2
  case tk3 => rintro rfl; rw [busRead_tk3]; exact pack16_extract s.tk3
  case cfg => rintro rfl; rw [busRead_cfg]; exact cfgWord_fields s.cfg
  case cmd => rintro rfl; exact busRead_cmd s
  case status => rintro rfl; rw [busRead_status]; exact statusWord_fields s.status
  case rtkLen => rintro rfl; exact busRead_rtkLen s
  case hwcfg =>
    rintro rfl
    obtain ⟨depth, gap, mode, high⟩ := hwcfgWord_fields s.build
    rw [busRead_hwcfg]
    exact ⟨depth, gap, by rw [mode, beq_iff_eq], high⟩
  case entry =>
    intro k ha hk
    rw [busRead_entry ha hk]
    exact ⟨pack8_high (s.rtkAt k), pack8_extract (s.rtkAt k)⟩
  case unmapped => exact fun named outside => busRead_unmapped named outside

/-! ### Writes -/

theorem exec_wr_st (v : Word64) (s : State) :
    exec (.wr 0x00 v) s = finishWrite s (.ok (s.withSt (unpack16 v))) := rfl
theorem exec_wr_tk1 (v : Word64) (s : State) :
    exec (.wr 0x01 v) s = finishWrite s (.ok (s.withTk1 (unpack16 v))) := rfl
theorem exec_wr_tk2 (v : Word64) (s : State) :
    exec (.wr 0x02 v) s = finishWrite s (.ok (s.withTk2 (unpack16 v))) := rfl
theorem exec_wr_tk3 (v : Word64) (s : State) :
    exec (.wr 0x03 v) s = finishWrite s (.ok (s.withTk3 (unpack16 v))) := rfl
theorem exec_wr_rtkLen (v : Word64) (s : State) :
    exec (.wr 0x07 v) s = finishWrite s (.error .roWrite) := rfl
theorem exec_wr_hwcfg (v : Word64) (s : State) :
    exec (.wr 0x08 v) s = finishWrite s (.error .roWrite) := rfl

/-- R61: an entry of the stream is read-only. -/
theorem exec_wr_entry {s : State} {k : Nat} {a : Addr} (v : Word64) (ha : a.toNat = 0x40 + k)
    (hk : k < s.build.nMax) : exec (.wr a v) s = finishWrite s (.error .roWrite) := by
  rw [exec_wr, execWr, regAt_entry ha hk]

/-- R61: a write to an unmapped address is a BAD_ADDR. -/
theorem exec_wr_unmapped {s : State} {a : Addr} (v : Word64) (named : 0x09 ≤ a.toNat)
    (outside : a.toNat < 0x40 ∨ 0x40 + s.build.nMax ≤ a.toNat) :
    exec (.wr a v) s = finishWrite s (.error .badAddr) := by
  rw [exec_wr, execWr, regAt_unmapped named outside]

/-- Settles O19: the register's cells are the unpacked word, and packing them gives the word back. -/
theorem writeLoadsADataRegister : Obligations.WriteLoadsADataRegister := by
  intro v s
  have readBack : pack16 (unpack16 v) = v := pack16_unpack16 v
  exact ⟨unpack16 v, fun i => unpack16_getElem v i i.isLt,
    exec_wr_st v s, exec_wr_tk1 v s, exec_wr_tk2 v s, exec_wr_tk3 v s,
    (busRead_st _).trans readBack, (busRead_tk1 _).trans readBack,
    (busRead_tk2 _).trans readBack, (busRead_tk3 _).trans readBack⟩

/-- Settles O22: each address of the first clause is read-only, each of the second unmapped, and a failed
write ends in the error over the old state. -/
theorem readOnlyAndUnmappedWritesRaiseOnly : Obligations.ReadOnlyAndUnmappedWritesRaiseOnly := by
  intro a v s
  constructor
  · rintro (rfl | rfl | ⟨lo, hi⟩)
    · rw [exec_wr_rtkLen, finishWrite_error]; rfl
    · rw [exec_wr_hwcfg, finishWrite_error]; rfl
    · rw [exec_wr_entry v (Nat.add_sub_cancel' lo).symm (by omega), finishWrite_error]; rfl
  · rintro ⟨named, outside⟩
    rw [exec_wr_unmapped v named outside, finishWrite_error]; rfl

end Sys2Proof.Machine
end

section
/-! The encoding family: the words that the decoder of CMD refuses, a lemma for each of R74 to R76. -/

namespace Sys2Proof.Machine

open Sys2Proof

/-- R75: the map has no command at OP = 0xF, whatever the operand. -/
theorem commandOf_reservedOpcode (imm : BitVec 6) :
    commandOf 0xF imm = .error .reservedOpcode := rfl

/-- R74: the operand-less commands accept no operand but 0. -/
theorem commandOf_strayOperand {op : BitVec 4} {imm : BitVec 6}
    (bare : op ∈ [0x0, 0x1, 0x2, 0x3, 0x4, 0x5, 0x6, 0x9, 0xD, 0xE]) (stray : imm ≠ 0) :
    commandOf op imm = .error .strayOperand := by
  simp only [List.mem_cons, List.not_mem_nil, or_false] at bare
  rcases bare with rfl | rfl | rfl | rfl | rfl | rfl | rfl | rfl | rfl | rfl <;> exact if_neg stray

/-- R76: a reserved bit is enough to refuse a word, before its OP is looked at. -/
theorem decodeCommand_reservedBits {v : Word64}
    (reserved : v.extractLsb' 16 48 ≠ 0 ∨ v.extractLsb' 6 6 ≠ 0) :
    decodeCommand v = .error .reservedBits := if_pos reserved

/-- A word whose OP and IMM6 the command map refuses is refused whatever its reserved bits are: they can
change the reason only. -/
theorem decodeCommand_refuses_of_commandOf {v : Word64} {e : IllegalCommand}
    (refused : commandOf (v.extractLsb' 12 4) (v.extractLsb' 0 6) = .error e) :
    ∃ e', decodeCommand v = .error e' := by
  by_cases reserved : v.extractLsb' 16 48 ≠ 0 ∨ v.extractLsb' 6 6 ≠ 0
  · exact ⟨_, decodeCommand_reservedBits reserved⟩
  · exact ⟨e, (if_neg reserved).trans refused⟩

/-- Settles O15: each form of illegal word is refused by the decoder, and a refused word ends in
ILLEGAL_CMD over the old state. -/
theorem illegalCommandWordsRaiseOnly : Obligations.IllegalCommandWordsRaiseOnly := by
  intro v s illegal
  have refused : ∃ e, decodeCommand v = .error e := by
    rcases illegal with opcode | ⟨bare, stray⟩ | reserved
    · exact decodeCommand_refuses_of_commandOf (opcode ▸ commandOf_reservedOpcode _)
    · exact decodeCommand_refuses_of_commandOf (commandOf_strayOperand bare stray)
    · exact ⟨_, decodeCommand_reservedBits reserved⟩
  obtain ⟨e, he⟩ := refused
  exact exec_wr_cmd_error s he

end Sys2Proof.Machine
end

section
/-! The nibble family: the words of a command, the cells of each nibble operation, then the commands
(30_encoding.md R71 to R74, 40_nibble_primitives.md R100 to R113). -/

namespace Sys2Proof.Machine

open Sys2Proof

/-! ### Command words -/

/-- R71: the word of a command the map knows, written to CMD, is that command. -/
theorem exec_wr_commandWord {op : BitVec 4} {imm : BitVec 6} {i : Instr} (s : State)
    (known : commandOf op imm = .ok i) (command : isCommand i = true) :
    exec (.wr 0x05 (commandWord op imm)) s = exec i s := by
  rw [exec_wr_cmd_ok s ((decodeCommand_commandWord op imm).trans known),
    executeCommand_eq_exec i s command]

/-- R74: an opcode without operand gives its command at IMM6 = 0 and ILLEGAL_CMD at any other. -/
theorem bareCommand_of_commandOf {op : BitVec 4} {i : Instr} (s : State)
    (bare : op ∈ [0x0, 0x1, 0x2, 0x3, 0x4, 0x5, 0x6, 0x9, 0xD, 0xE])
    (known : commandOf op 0 = .ok i) (command : isCommand i = true) : BareCommand op i s := by
  refine ⟨exec_wr_commandWord s known command, fun k stray => ?_⟩
  have refused : decodeCommand (commandWord op k) = .error .strayOperand :=
    (decodeCommand_commandWord op k).trans (commandOf_strayOperand bare stray)
  exact exec_wr_cmd_error s refused

/-- R72: an opcode with an operand gives its command on every IMM6. -/
theorem immediateCommand_of_commandOf {op : BitVec 4} {i : BitVec 6 → Instr} (s : State)
    (known : ∀ k, commandOf op k = .ok (i k)) (command : ∀ k, isCommand (i k) = true) :
    ImmediateCommand op i s :=
  fun k => exec_wr_commandWord s (known k) (command k)

/-! ### The cells of each operation -/

theorem subCells_get (b : Build) (s : Cells) (i : Fin 16) : (subCells b s)[i] = sboxAt b s[i] :=
  cellsOf_get _ i

theorem isubCells_get (b : Build) (s : Cells) (i : Fin 16) : (isubCells b s)[i] = sboxInvAt b s[i] :=
  cellsOf_get _ i

theorem permuteCells_get (b : Build) (s : Cells) (i : Fin 16) :
    (permuteCells b s)[i] = s[b.perm[i]] :=
  cellsOf_get _ i

theorem unpermuteCells_get (b : Build) (s : Cells) (i : Fin 16) :
    (unpermuteCells b s)[i] = s[permInvAt b i] :=
  cellsOf_get _ i

/-- R101: un-permuting scatters, as P_INV undoes P on positions. -/
theorem unpermuteCells_get_perm {b : Build} (hb : LegalBuild b) (s : Cells) (i : Fin 16) :
    (unpermuteCells b s)[b.perm[i]] = s[i] := by
  simp only [unpermuteCells_get, permInvAt_perm hb]

/-- R102: a cell is its row of the matrix applied to the old cells of its column. -/
theorem mixColumns_get_gridCell (m : Matrix4) (s : Cells) (i j : Fin 4) :
    (mixColumns m s)[gridCell i j] = mixRow m[i] fun k => s[gridCell k j] := by
  simp only [mixColumns, cellsOf_get, gridRow_gridCell, gridColumn_gridCell]

/-- A cell that is taken or left out is XORed in or not. -/
theorem xor_gate (keep : Bool) (x y : Cell) : x ^^^ gate keep y = if keep then x ^^^ y else x := by
  cases keep <;> simp [gate]

/-- The XOR that a row selects, accumulated cell by cell. -/
theorem mixRow_eq_foldl (row : Row4) (a : Fin 4 → Cell) :
    mixRow row a =
      (List.finRange 4).foldl (fun acc m => if row[m] then acc ^^^ a m else acc) 0 := by
  simp only [← xor_gate]
  show _ = (0 : Cell) ^^^ gate row[0] (a 0) ^^^ gate row[1] (a 1) ^^^ gate row[2] (a 2) ^^^
    gate row[3] (a 3)
  have start : (0 : Cell) ^^^ gate row[0] (a 0) = gate row[0] (a 0) := BitVec.zero_xor
  rw [start, mixRow]

/-- R102: a diffused cell is the XOR of its column's old cells that its row of MIXM selects. -/
theorem diffuse_get_gridCell (b : Build) (s : Cells) (i j : Fin 4) :
    (diffuse b s)[gridCell i j] =
      (List.finRange 4).foldl
        (fun acc m => if b.mixm[i][m] then acc ^^^ s[gridCell m j] else acc) 0 := by
  rw [diffuse, mixColumns_get_gridCell, mixRow_eq_foldl]

/-- R102: MIXM · MIXM_INV = 1, so mixing undoes un-mixing. -/
theorem diffuse_undiffuse {b : Build} (hb : LegalBuild b) (s : Cells) :
    diffuse b (undiffuse b s) = s := by
  obtain ⟨-, -, -, -, mixm_mul_inv, -⟩ := hb
  rw [diffuse, undiffuse, mixColumns_mixColumns, mixm_mul_inv, mixColumns_one4]

theorem rcAt_of_lt (b : Build) {c : Nat} (h : c < 62) : rcAt b c = b.rc[c] := dif_pos h

theorem addConstants_get_zero (b : Build) (c : Nat) (s : Cells) :
    (addConstants b c s)[0] = s[0] ^^^ (rcAt b c).extractLsb' 0 4 := rfl

theorem addConstants_get_four (b : Build) (c : Nat) (s : Cells) :
    (addConstants b c s)[4] = s[4] ^^^ ((rcAt b c).extractLsb' 4 2).setWidth 4 := rfl

theorem addConstants_get_eight (b : Build) (c : Nat) (s : Cells) :
    (addConstants b c s)[8] = s[8] ^^^ b.c2.setWidth 4 := rfl

/-- R103: the constants touch no cell but 0, 4 and 8. -/
theorem addConstants_get_other (b : Build) (c : Nat) (s : Cells) {i : Fin 16}
    (h0 : i ≠ 0) (h4 : i ≠ 4) (h8 : i ≠ 8) : (addConstants b c s)[i] = s[i] := by
  simp only [addConstants, cellsOf_get, if_neg h0, if_neg h4, if_neg h8]

/-- R104: the round-tweakey goes into cells 0 to 7. -/
theorem addTweakey_get_low (t : RoundTweakey) (s : Cells) (i : Fin 8) :
    (addTweakey t s)[i.val] = s[i.val] ^^^ t[i] := by
  rw [addTweakey, cellsOf_getElem, dif_pos i.isLt]
  rfl

/-- R104: cells 8 to 15 are left alone. -/
theorem addTweakey_get_high (t : RoundTweakey) (s : Cells) {i : Fin 16} (h : 8 ≤ i.val) :
    (addTweakey t s)[i] = s[i] := by
  rw [addTweakey, cellsOf_get, dif_neg (by omega)]

/-! ### The commands -/

/-- R201 for a command that gives ST new cells: ERR is OK and every other register is kept. -/
theorem finishWrite_withSt (s : State) (x : Cells) :
    finishWrite s (.ok (s.withSt x)) =
      .next { s with st := x, status := { s.status with err := 0 } } := rfl

/-- R112: a constant index of the table. -/
theorem exec_addc_of_lt {k : BitVec 6} (s : State) (h : k.toNat < 62) :
    exec (.addc k) s = finishWrite s (.ok (s.withSt (addConstants s.build k.toNat s.st))) := by
  rw [exec_addc, if_neg (by omega)]

/-- R112: a constant index past the table. -/
theorem exec_addc_of_ge {k : BitVec 6} (s : State) (h : 62 ≤ k.toNat) :
    exec (.addc k) s = finishWrite s (.error .range) := by
  rw [exec_addc, if_pos (by omega)]

/-- R113: an entry that the stream holds. -/
theorem exec_addtk_of_lt {k : BitVec 6} {s : State} (h : k.toNat < s.rtkLen) :
    exec (.addtk k) s = finishWrite s (.ok (s.withSt (addTweakey (s.rtkAt k.toNat) s.st))) := by
  rw [exec_addtk, if_neg (by omega)]

/-- R113: an entry past the end of the stream. -/
theorem exec_addtk_of_ge {k : BitVec 6} {s : State} (h : s.rtkLen ≤ k.toNat) :
    exec (.addtk k) s = finishWrite s (.error .schedShort) := by
  rw [exec_addtk, if_pos h]

/-- Settles O30: each new cell is an SBOX or SBOX_INV entry, and SBOX undoes SBOX_INV in a legal build. -/
theorem subAndIsubSubstituteEveryCell : Obligations.SubAndIsubSubstituteEveryCell := by
  intro s hb
  refine ⟨subCells s.build s.st, isubCells s.build s.st, ?sub, subCells_get s.build s.st,
    ?isub, ?undo, bareCommand_of_commandOf s (by decide) rfl rfl,
    bareCommand_of_commandOf s (by decide) rfl rfl⟩
  case sub => rw [exec_sub, finishWrite_withSt]
  case isub => rw [exec_isub, finishWrite_withSt]
  case undo =>
    intro i
    rw [isubCells_get, sboxAt_sboxInvAt hb]

/-- Settles O31: PERM gathers by P, and P_INV undoes P on positions in a legal build. -/
theorem permAndIpermMoveCells : Obligations.PermAndIpermMoveCells := by
  intro s hb
  refine ⟨permuteCells s.build s.st, unpermuteCells s.build s.st, ?perm,
    permuteCells_get s.build s.st, ?iperm, unpermuteCells_get_perm hb s.st,
    bareCommand_of_commandOf s (by decide) rfl rfl, bareCommand_of_commandOf s (by decide) rfl rfl⟩
  case perm => rw [exec_perm, finishWrite_withSt]
  case iperm => rw [exec_iperm, finishWrite_withSt]

/-- Settles O32: a mixed cell is the fold over its row of MIXM, and the old state is the mix of the
un-mixed one. -/
theorem mixAndImixWorkPerColumn : Obligations.MixAndImixWorkPerColumn := by
  intro s hb
  refine ⟨diffuse s.build s.st, undiffuse s.build s.st, ?mix, diffuse_get_gridCell s.build s.st,
    ?imix, ?undo,
    bareCommand_of_commandOf s (by decide) rfl rfl, bareCommand_of_commandOf s (by decide) rfl rfl⟩
  case mix => rw [exec_mix, finishWrite_withSt]
  case imix => rw [exec_imix, finishWrite_withSt]
  case undo =>
    intro i j
    rw [← diffuse_get_gridCell, diffuse_undiffuse hb]

/-- Settles O33: the split is on the end of the table RC. -/
theorem addcXorsTheRoundConstant : Obligations.AddcXorsTheRoundConstant := by
  intro s k
  refine ⟨fun inTable => ?ok, fun past => ?range,
    immediateCommand_of_commandOf s (fun _ => rfl) fun _ => rfl⟩
  case ok =>
    rw [← rcAt_of_lt s.build inTable]
    exact ⟨addConstants s.build k.toNat s.st,
      by rw [exec_addc_of_lt s inTable, finishWrite_withSt],
      addConstants_get_zero s.build k.toNat s.st, addConstants_get_four s.build k.toNat s.st,
      addConstants_get_eight s.build k.toNat s.st,
      fun _ => addConstants_get_other s.build k.toNat s.st⟩
  case range =>
    rw [exec_addc_of_ge s past, finishWrite_error]
    rfl

/-- Settles O34: the split is on RTK_LEN. -/
theorem addtkXorsTheStreamEntry : Obligations.AddtkXorsTheStreamEntry := by
  intro s k
  refine ⟨fun held => ?ok, fun past => ?short,
    immediateCommand_of_commandOf s (fun _ => rfl) fun _ => rfl⟩
  case ok =>
    exact ⟨addTweakey (s.rtkAt k.toNat) s.st,
      by rw [exec_addtk_of_lt held, finishWrite_withSt],
      addTweakey_get_low (s.rtkAt k.toNat) s.st,
      fun _ => addTweakey_get_high (s.rtkAt k.toNat) s.st⟩
  case short =>
    rw [exec_addtk_of_ge past, finishWrite_error]
    rfl

end Sys2Proof.Machine
end

section
/-! The tweakey family: the linear-feedback maps bit by bit, the cells of one schedule step, the entries of
the stream that TKGEN writes, then the two commands (41_tweakey_schedule.md R140 to R148). -/

namespace Sys2Proof.Machine

open Sys2Proof

/-! ### The linear-feedback maps -/

/-- R140: the bit that map A feeds back. -/
theorem lfsrA_getElem_zero (x : Cell) : (lfsrA x)[0] = (x[3] ^^ x[2]) := by
  simp [lfsrA, BitVec.getElem_setWidth]

/-- R140: every other bit of map A is the one below it. -/
theorem lfsrA_getElem_succ (x : Cell) {j : Nat} (h : j + 1 < 4) : (lfsrA x)[j + 1] = x[j] := by
  simp [lfsrA, BitVec.getElem_setWidth]

/-- R141: the bit that map B feeds back. -/
theorem lfsrB_getElem_three (x : Cell) : (lfsrB x)[3] = (x[0] ^^ x[3]) := by
  simp [lfsrB, BitVec.getElem_setWidth]

/-- R141: every other bit of map B is the one above it. -/
theorem lfsrB_getElem_of_lt (x : Cell) {j : Nat} (h : j < 3) : (lfsrB x)[j] = x[j + 1] := by
  have bit : x.getLsbD (1 + j) = x[j + 1] := by rw [Nat.add_comm, BitVec.getLsbD_eq_getElem]
  simp [lfsrB, BitVec.getElem_setWidth, h, bit]

/-- Settles O36: in each map one bit is fed back and the other three are shifted. -/
theorem linearFeedbackMapsBitByBit : Obligations.LinearFeedbackMapsBitByBit := by
  intro x
  exact ⟨lfsrA_getElem_succ x (by decide), lfsrA_getElem_succ x (by decide),
    lfsrA_getElem_succ x (by decide), lfsrA_getElem_zero x,
    lfsrB_getElem_three x, lfsrB_getElem_of_lt x (by decide), lfsrB_getElem_of_lt x (by decide),
    lfsrB_getElem_of_lt x (by decide)⟩

/-! ### One step of the schedule -/

theorem tkPermute_get (b : Build) (w : Cells) (i : Fin 16) : (tkPermute b w)[i] = w[b.tkPerm[i]] :=
  cellsOf_get _ i

/-- R144: the map reaches cells 0 to 7. -/
theorem onTopHalf_get_low (f : Cell → Cell) (w : Cells) {i : Fin 16} (h : i.val < 8) :
    (onTopHalf f w)[i] = f w[i] := by
  rw [onTopHalf, cellsOf_get, if_pos h]

/-- R144: cells 8 to 15 pass through. -/
theorem onTopHalf_get_high (f : Cell → Cell) (w : Cells) {i : Fin 16} (h : 8 ≤ i.val) :
    (onTopHalf f w)[i] = w[i] := by
  rw [onTopHalf, cellsOf_get, if_neg (by omega)]

/-- R144: TK1 is permuted only. -/
theorem tkStep_w1_get (b : Build) (w : TkWords) (i : Fin 16) :
    (tkStep b w).w1[i] = w.w1[b.tkPerm[i]] :=
  tkPermute_get b w.w1 i

/-- R142, R144: the first 8 cells of TK2 and TK3 are permuted and mapped. -/
theorem tkStep_get_low (b : Build) (w : TkWords) {i : Fin 16} (h : i.val < 8) :
    (tkStep b w).w2[i] = lfsrA w.w2[b.tkPerm[i]] ∧ (tkStep b w).w3[i] = lfsrB w.w3[b.tkPerm[i]] := by
  rw [tkStep, onTopHalf_get_low _ _ h, onTopHalf_get_low _ _ h, tkPermute_get, tkPermute_get]
  exact ⟨rfl, rfl⟩

/-- R142, R144: the last 8 cells of TK2 and TK3 are permuted only. -/
theorem tkStep_get_high (b : Build) (w : TkWords) {i : Fin 16} (h : 8 ≤ i.val) :
    (tkStep b w).w2[i] = w.w2[b.tkPerm[i]] ∧ (tkStep b w).w3[i] = w.w3[b.tkPerm[i]] := by
  rw [tkStep, onTopHalf_get_high _ _ h, onTopHalf_get_high _ _ h, tkPermute_get, tkPermute_get]
  exact ⟨rfl, rfl⟩

/-- R148, R201: TKUPD stores the stepped words, sets ERR to OK and keeps every other register. -/
theorem exec_tkupd_eq (s : State) :
    exec .tkupd s = .next { s with
      tk1 := (tkStep s.build s.tkWords).w1
      tk2 := (tkStep s.build s.tkWords).w2
      tk3 := (tkStep s.build s.tkWords).w3
      status := { s.status with err := 0 } } := by
  rw [exec_tkupd, finishWrite_ok]
  rfl

/-- Settles O38: the new words are one schedule step of the old ones, read cell by cell. -/
theorem tkupdStepsTheTweakeyWords : Obligations.TkupdStepsTheTweakeyWords := by
  intro s
  exact ⟨_, _, _, exec_tkupd_eq s,
    fun i => ⟨tkStep_w1_get s.build s.tkWords i,
      fun low => tkStep_get_low s.build s.tkWords low,
      fun high => tkStep_get_high s.build s.tkWords high⟩,
    bareCommand_of_commandOf s (by decide) rfl rfl⟩

/-! ### The stream that TKGEN writes -/

/-- R145: a round-tweakey is the XOR of the first 8 cells of the three words. -/
theorem rtkOf_get (w : TkWords) (i : Fin 8) :
    (rtkOf w)[i] = w.w1[i.val] ^^^ w.w2[i.val] ^^^ w.w3[i.val] :=
  tweakeyOf_get _ i

/-- R146: entry `k` of a schedule comes from the words after `k` steps. -/
theorem schedule_getElem? (b : Build) (w : TkWords) {n k : Nat} (h : k < n) :
    (schedule b w n)[k]? = some (rtkOf ((tkStep b)^[k] w)) := by
  induction n generalizing w k with
  | zero => omega
  | succ n ih =>
    cases k with
    | zero => rfl
    | succ k =>
      rw [schedule, List.getElem?_cons_succ, ih _ (by omega), Function.iterate_succ_apply]

/-- R147: the whole stream after TKGEN, the schedule's `n` entries and zeros up to N_MAX. -/
def generatedStream (s : State) (n : Nat) : List RoundTweakey :=
  schedule s.build s.tkWords n ++ List.replicate (s.build.nMax - n) zeroTweakey

theorem generatedStream_length (s : State) {n : Nat} (h : n ≤ s.build.nMax) :
    (generatedStream s n).length = s.build.nMax := by
  rw [generatedStream, List.length_append, schedule_length, List.length_replicate, Nat.add_sub_cancel' h]

/-- R147: an entry below `n` is the schedule's. -/
theorem generatedStream_getD_of_lt (s : State) {n k : Nat} (h : k < n) :
    (generatedStream s n).getD k zeroTweakey = rtkOf ((tkStep s.build)^[k] s.tkWords) := by
  rw [generatedStream, List.getD_append _ _ _ _ (by rwa [schedule_length]),
    List.getD_eq_getElem?_getD, schedule_getElem? _ _ h, Option.getD_some]

/-- R147: an entry from `n` on is cleared. -/
theorem generatedStream_getD_of_ge (s : State) {n k : Nat} (h : n ≤ k) :
    (generatedStream s n).getD k zeroTweakey = zeroTweakey := by
  rw [generatedStream, List.getD_append_right _ _ _ _ (by rwa [schedule_length]),
    List.getD_eq_getElem?_getD, List.getElem?_getD_replicate_default_eq]

theorem zeroTweakey_get (i : Fin 8) : zeroTweakey[i] = 0 :=
  Vector.getElem_replicate i.isLt

/-- R147, R201: TKGEN within N_MAX writes the stream and its length, sets ERR to OK and keeps every other
register. -/
theorem exec_tkgen_of_le {n : BitVec 6} {s : State} (h : n.toNat ≤ s.build.nMax) :
    exec (.tkgen n) s = .next { s with
      rtk := generatedStream s n.toNat
      rtkLen := n.toNat
      status := { s.status with err := 0 } } := by
  rw [exec_tkgen, if_neg (by omega), finishWrite_ok]
  rfl

/-- R147: TKGEN beyond N_MAX. -/
theorem exec_tkgen_of_gt {n : BitVec 6} {s : State} (h : s.build.nMax < n.toNat) :
    exec (.tkgen n) s = .next (raiseError .range s) := by
  rw [exec_tkgen, if_pos h, finishWrite_error]

/-- Settles O39: the split is on N_MAX, and the entries of the generated stream on N. -/
theorem tkgenWritesTheStream : Obligations.TkgenWritesTheStream := by
  intro s n
  refine ⟨fun fits => ⟨generatedStream s n.toNat, exec_tkgen_of_le fits,
    generatedStream_length s fits, ?written, ?cleared⟩, fun beyond => exec_tkgen_of_gt beyond,
    immediateCommand_of_commandOf s (fun _ => rfl) fun _ => rfl⟩
  case written =>
    intro k hk i
    rw [generatedStream_getD_of_lt s hk, rtkOf_get]
    rfl
  case cleared =>
    intro k hk _ i
    rw [generatedStream_getD_of_ge s hk, zeroTweakey_get]

end Sys2Proof.Machine
end

section
/-! The round-engine family: the indices of a round, how a command behind each check ends, a run of
rounds as a fold, then the four commands (42_round_engine.md R170 to R177). -/

namespace Sys2Proof.Machine

open Sys2Proof

/-! ### The indices and operations of a round -/

/-- R171: the constant index, by the mode of the build. -/
theorem constantIndex_eq_ite (b : Build) (c : Cfg) (r : Nat) :
    constantIndex b c r = if b.rcMode = .stream then streamIndex c r else r := by
  unfold constantIndex
  cases b.rcMode with
  | stream => exact (if_pos rfl).symm
  | branch => exact (if_neg RcIndexMode.noConfusion).symm

/-- R172: round `r` is the five operations of the forward round, at the indices of `r`. -/
theorem roundAt_eq (s : State) (r : Nat) (x : Cells) :
    s.roundAt r x =
      diffuse s.build (permuteCells s.build (addTweakey (s.rtk.getD (streamIndex s.cfg r) zeroTweakey)
        (addConstants s.build (constantIndex s.build s.cfg r) (subCells s.build x)))) := rfl

/-- R173: inverse round `r` is the five inverse operations, at the same indices. -/
theorem roundInvAt_eq (s : State) (r : Nat) (x : Cells) :
    s.roundInvAt r x =
      isubCells s.build (addConstants s.build (constantIndex s.build s.cfg r)
        (addTweakey (s.rtk.getD (streamIndex s.cfg r) zeroTweakey)
          (unpermuteCells s.build (undiffuse s.build x)))) := rfl

/-! ### Commands that give ST new cells behind a check -/

/-- R174, R175: within R and the generated stream, a round's command ends in its new cells. -/
theorem finishWrite_checkRound_ok {s : State} {r : Nat} (x : Cells) (inBranch : r < s.cfg.r.toNat)
    (generated : streamIndex s.cfg r < s.rtkLen) :
    finishWrite s ((checkRound r s).map fun _ => s.withSt x) =
      .next { s with st := x, status := { s.status with err := 0 } } := by
  rw [checkRound, if_neg (by omega), if_neg (by omega)]
  exact finishWrite_withSt s x

/-- R174, R175: from R on, a round's command is RANGE, whatever the stream holds. -/
theorem finishWrite_checkRound_range {s : State} {r : Nat} (x : Cells) (past : s.cfg.r.toNat ≤ r) :
    finishWrite s ((checkRound r s).map fun _ => s.withSt x) =
      .next { s with status := { err := 2, sticky := true } } := by
  rw [checkRound, if_pos past]
  rfl

/-- R174, R175: a round within R whose stream entry is missing is SCHED_SHORT. -/
theorem finishWrite_checkRound_schedShort {s : State} {r : Nat} (x : Cells)
    (inBranch : r < s.cfg.r.toNat) (missing : s.rtkLen ≤ streamIndex s.cfg r) :
    finishWrite s ((checkRound r s).map fun _ => s.withSt x) =
      .next { s with status := { err := 3, sticky := true } } := by
  rw [checkRound, if_neg (by omega), if_pos missing]
  rfl

/-- R176, R177: on a stream of R + R0 entries, an engine's command ends in its new cells. -/
theorem finishWrite_checkEngine_ok {s : State} (x : Cells)
    (long : s.cfg.r.toNat + s.cfg.r0.toNat ≤ s.rtkLen) :
    finishWrite s ((checkEngine s).map fun _ => s.withSt x) =
      .next { s with st := x, status := { s.status with err := 0 } } := by
  rw [checkEngine, if_neg (by omega)]
  exact finishWrite_withSt s x

/-- R176, R177: on a shorter stream, an engine's command is SCHED_SHORT. -/
theorem finishWrite_checkEngine_schedShort {s : State} (x : Cells)
    (short : s.rtkLen < s.cfg.r.toNat + s.cfg.r0.toNat) :
    finishWrite s ((checkEngine s).map fun _ => s.withSt x) =
      .next { s with status := { err := 3, sticky := true } } := by
  rw [checkEngine, if_pos short]
  rfl

/-! ### Runs of rounds -/

/-- R176: the rounds of ENC are a fold over the rounds in rising order. -/
theorem encRounds_eq_foldl (s : State) (n : Nat) (x : Cells) :
    s.encRounds n x = (List.range n).foldl (fun y r => s.roundAt r y) x := by
  induction n with
  | zero => rfl
  | succ n ih =>
    rw [State.encRounds, ih, List.range_succ, List.foldl_append, List.foldl_cons, List.foldl_nil]

/-- R177: the rounds of DEC are a fold from the last round down. -/
theorem decRounds_eq_foldr (s : State) (n : Nat) (x : Cells) :
    s.decRounds n x = (List.range n).foldr s.roundInvAt x := by
  induction n generalizing x with
  | zero => rfl
  | succ n ih =>
    rw [State.decRounds, ih, List.range_succ, List.foldr_append, List.foldr_cons, List.foldr_nil]

/-! ### The commands -/

/-- Settles O45: the given indices are those of round `r`, and its check decides the outcomes. -/
theorem roundAppliesOneForwardRound : Obligations.RoundAppliesOneForwardRound := by
  intro s r idx cidx hidx hcidx
  obtain rfl : idx = streamIndex s.cfg r.toNat := hidx
  rw [← constantIndex_eq_ite] at hcidx
  rw [hcidx, ← roundAt_eq, exec_round]
  exact ⟨finishWrite_checkRound_ok _, finishWrite_checkRound_range _,
    finishWrite_checkRound_schedShort _, immediateCommand_of_commandOf s (fun _ => rfl) fun _ => rfl⟩

/-- Settles O46: ROUND's check decides the outcomes, and the inverse round takes the indices of `r`. -/
theorem iroundAppliesOneInverseRound : Obligations.IroundAppliesOneInverseRound := by
  intro s r idx cidx hidx hcidx
  obtain rfl : idx = streamIndex s.cfg r.toNat := hidx
  rw [← constantIndex_eq_ite] at hcidx
  rw [hcidx, ← roundInvAt_eq, exec_iround]
  exact ⟨finishWrite_checkRound_ok _, finishWrite_checkRound_range _,
    finishWrite_checkRound_schedShort _, immediateCommand_of_commandOf s (fun _ => rfl) fun _ => rfl⟩

/-- Settles O47: the split is on R + R0, and the new cells are the fold of the forward rounds. -/
theorem encAppliesTheRoundsInOrder : Obligations.EncAppliesTheRoundsInOrder := by
  intro s
  rw [exec_enc, encRounds_eq_foldl]
  exact ⟨finishWrite_checkEngine_ok _, finishWrite_checkEngine_schedShort _,
    bareCommand_of_commandOf s (by decide) rfl rfl⟩

/-- Settles O48: the split is on R + R0, and the new cells are the fold of the inverse rounds. -/
theorem decAppliesTheInverseRoundsInReverse : Obligations.DecAppliesTheInverseRoundsInReverse := by
  intro s
  rw [exec_dec, decRounds_eq_foldr]
  exact ⟨finishWrite_checkEngine_ok _, finishWrite_checkEngine_schedShort _,
    bareCommand_of_commandOf s (by decide) rfl rfl⟩

end Sys2Proof.Machine
end

section
/-! The exceptions family: the two ways a write can end, over the commands, then over the bus; the writes
to STATUS; the words that CMD refuses (60_exceptions.md R201 to R204). -/

namespace Sys2Proof.Machine

open Sys2Proof

/-! ### The two ends of a write -/

/-- R201, R203: a write other than to STATUS completes, either with ERR = OK and STICKY kept, or with one
error raised over the state `s` before it. -/
def EndsAsWrite (s : State) (o : Host.Outcome State Fault Refusal) : Prop :=
  (∃ t, o = .next t ∧ t.status = okStatus s.status) ∨ ∃ c, o = .next (raiseError c s)

theorem endsAsWrite_ok {s t : State} (keeps : t.status = s.status) :
    EndsAsWrite s (finishWrite s (.ok t)) :=
  .inl ⟨_, rfl, congrArg okStatus keeps⟩

theorem endsAsWrite_error (s : State) (c : ErrCode) : EndsAsWrite s (finishWrite s (.error c)) :=
  .inr ⟨c, rfl⟩

/-- A write behind the check of one condition. -/
theorem endsAsWrite_ite {s t : State} (p : Prop) [Decidable p] (c : ErrCode)
    (keeps : t.status = s.status) : EndsAsWrite s (finishWrite s (if p then .error c else .ok t)) := by
  split
  · exact endsAsWrite_error s c
  · exact endsAsWrite_ok keeps

/-- A write behind a check that can raise several errors. -/
theorem endsAsWrite_map {s t : State} (check : Except ErrCode Unit) (keeps : t.status = s.status) :
    EndsAsWrite s (finishWrite s (check.map fun _ => t)) := by
  cases check with
  | error c => exact endsAsWrite_error s c
  | ok => exact endsAsWrite_ok keeps

/-! ### Which instructions end as a write -/

/-- Every write to CMD ends so, whatever instruction its word is read as. -/
theorem endsAsWrite_executeCommand (i : Instr) (s : State) : EndsAsWrite s (executeCommand i s) := by
  cases i with
  | rd | wr => exact endsAsWrite_error s .illegalCmd
  | nop | sub | isub | perm | iperm | mix | imix | tkupd => exact endsAsWrite_ok rfl
  | addc | tkgen => exact endsAsWrite_ite _ .range rfl
  | addtk => exact endsAsWrite_ite _ .schedShort rfl
  | round | iround | enc | dec => exact endsAsWrite_map _ rfl

theorem endsAsWrite_command {i : Instr} (s : State) (command : isCommand i = true) :
    EndsAsWrite s (exec i s) :=
  executeCommand_eq_exec i s command ▸ endsAsWrite_executeCommand i s

theorem endsAsWrite_writeCmd (v : Word64) (s : State) : EndsAsWrite s (writeCmd v s) := by
  unfold writeCmd
  split
  · exact endsAsWrite_executeCommand _ s
  · exact endsAsWrite_error s .illegalCmd

theorem endsAsWrite_writeCfg (v : Word64) (s : State) : EndsAsWrite s (writeCfg v s) := by
  by_cases legal : CfgLegal s.build.nMax (cfgOfWord v)
  · exact .inl ⟨_, writeCfg_of_legal legal, rfl⟩
  · exact .inr ⟨_, writeCfg_of_not_legal legal⟩

/-- R51: STATUS stands at no other address. -/
theorem addr_of_regAt_status {nMax : Nat} {a : Addr} (h : regAt nMax a = .status) : a = 0x06 := by
  have map := regAt_spec nMax a
  simpa [h] using map

/-- R201: the write of every register but STATUS ends so. -/
theorem endsAsWrite_wr {a : Addr} (v : Word64) (s : State) (other : a ≠ 0x06) :
    EndsAsWrite s (exec (.wr a v) s) := by
  rw [exec_wr, execWr]
  cases reg : regAt s.build.nMax a with
  | st | tk1 | tk2 | tk3 => exact endsAsWrite_ok rfl
  | cfg => exact endsAsWrite_writeCfg v s
  | cmd => exact endsAsWrite_writeCmd v s
  | status => exact absurd (addr_of_regAt_status reg) other
  | rtkLen | hwcfg | rtk => exact endsAsWrite_error s .roWrite
  | unmapped => exact endsAsWrite_error s .badAddr

/-- R201: only reads and STATUS writes can end otherwise. -/
theorem endsAsWrite_exec {i : Instr} (s : State) (notRead : ∀ a, i ≠ .rd a)
    (notStatus : ∀ v, i ≠ .wr 0x06 v) : EndsAsWrite s (exec i s) := by
  cases i with
  | rd a => exact absurd rfl (notRead a)
  | wr a v => exact endsAsWrite_wr v s fun status => notStatus v (status ▸ rfl)
  | _ => exact endsAsWrite_command s rfl

/-- The three kinds of instruction that R201 tells apart. -/
theorem instr_kinds (i : Instr) :
    (∃ a, i = .rd a) ∨ (∃ v, i = .wr 0x06 v) ∨ ((∀ a, i ≠ .rd a) ∧ ∀ v, i ≠ .wr 0x06 v) := by
  by_cases read : ∃ a, i = .rd a
  · exact .inl read
  · by_cases status : ∃ v, i = .wr 0x06 v
    · exact .inr (.inl status)
    · exact .inr (.inr ⟨not_exists.mp read, not_exists.mp status⟩)

/-- R28: a STATUS write gives STICKY a value and touches nothing else. -/
theorem withStatus_writeStatus (v : Word64) (s : State) :
    s.withStatus (writeStatus v s.status) =
      { s with status := { err := s.status.err, sticky := (writeStatus v s.status).sticky } } := by
  rw [← writeStatus_err v s.status]
  rfl

/-- R202: an instruction that is no STATUS write does not clear STICKY. -/
theorem sticky_of_exec {i : Instr} {s t : State} (notStatus : ∀ v, i ≠ .wr 0x06 v)
    (h : exec i s = .next t) (set : s.status.sticky = true) : t.status.sticky = true := by
  rcases instr_kinds i with ⟨a, rfl⟩ | ⟨v, rfl⟩ | ⟨notRead, -⟩
  · cases (exec_rd a s).symm.trans h
    exact set
  · exact absurd rfl (notStatus v)
  · rcases endsAsWrite_exec s notRead notStatus with ⟨u, ends, ok⟩ | ⟨c, ends⟩
    · cases ends.symm.trans h
      exact ok ▸ set
    · cases ends.symm.trans h
      rfl

/-! ### Words that are no command words -/

/-- R74 to R76, the four conditions on the fields of a command word. -/
theorem isCommandWord_iff (v : Word64) :
    isCommandWord v = true ↔
      v.extractLsb' 16 48 = 0 ∧ v.extractLsb' 6 6 = 0 ∧ v.extractLsb' 12 4 ≠ 0xF ∧
        (v.extractLsb' 12 4 ∈ [0x7, 0x8, 0xA, 0xB, 0xC] ∨ v.extractLsb' 0 6 = 0) := by
  unfold isCommandWord
  generalize v.extractLsb' 12 4 = op
  simp [BitVec.toNat_eq, and_assoc, or_assoc]

/-- R73 to R75: an OP that is not reserved takes an operand or takes none. -/
theorem opcode_takes_operand_or_bare (op : BitVec 4) (known : op ≠ 0xF) :
    op ∈ [0x7, 0x8, 0xA, 0xB, 0xC] ∨
      op ∈ [0x0, 0x1, 0x2, 0x3, 0x4, 0x5, 0x6, 0x9, 0xD, 0xE] := by
  revert op
  decide

/-- R74 to R76 name everything that can be wrong with a word. -/
theorem illegal_of_not_isCommandWord {v : Word64} (h : isCommandWord v = false) :
    v.extractLsb' 12 4 = 0xF ∨
      (v.extractLsb' 12 4 ∈ [0x0, 0x1, 0x2, 0x3, 0x4, 0x5, 0x6, 0x9, 0xD, 0xE] ∧
        v.extractLsb' 0 6 ≠ 0) ∨
      v.extractLsb' 16 48 ≠ 0 ∨ v.extractLsb' 6 6 ≠ 0 := by
  by_contra legal
  simp only [not_or, not_and, not_not] at legal
  obtain ⟨known, noStray, high, low⟩ := legal
  have isWord : isCommandWord v = true :=
    (isCommandWord_iff v).mpr
      ⟨high, low, known, (opcode_takes_operand_or_bare _ known).imp_right noStray⟩
  exact Bool.noConfusion (h.symm.trans isWord)

/-! ### The statements -/

/-- Settles O24: a read and a STATUS write are what they say, and everything else ends as a write. -/
theorem everyWriteAssignsErrOnce : Obligations.EveryWriteAssignsErrOnce := by
  intro i s
  rcases instr_kinds i with ⟨a, rfl⟩ | ⟨v, rfl⟩ | ⟨notRead, notStatus⟩
  · exact ⟨_, exec_rd a s, fun _ _ => rfl, nofun, fun notRead => absurd rfl (notRead a)⟩
  · exact ⟨_, exec_wr_status v s, nofun, fun _ _ => ⟨_, withStatus_writeStatus v s⟩,
      fun _ notStatus => absurd rfl (notStatus v)⟩
  · rcases endsAsWrite_exec s notRead notStatus with ⟨t, ends, ok⟩ | ⟨c, ends⟩
    · exact ⟨t, ends, fun a read => absurd read (notRead a),
        fun v status => absurd status (notStatus v), fun _ _ => .inl ok⟩
    · exact ⟨_, ends, fun a read => absurd read (notRead a),
        fun v status => absurd status (notStatus v),
        fun _ _ => .inr ⟨c, errCode_ne_zero c, (errCode_range c).2, rfl, rfl⟩⟩

/-- Settles O25: a STATUS write clears STICKY by bit 8, and no other instruction clears it. -/
theorem stickyIsClearedOnlyByStatusWriteOrReset :
    Obligations.StickyIsClearedOnlyByStatusWriteOrReset := by
  refine ⟨fun c s => ⟨rfl, errCode_ne_zero c⟩, fun i s t h set => ⟨fun cleared => ?only, ?clears⟩,
    fun s => rfl⟩
  case only =>
    by_cases status : ∃ v, i = .wr 0x06 v
    · obtain ⟨v, rfl⟩ := status
      cases (exec_wr_status v s).symm.trans h
      exact ⟨v, rfl, by simpa [set] using cleared⟩
    · have kept := sticky_of_exec (not_exists.mp status) h set
      exact Bool.noConfusion (kept.symm.trans cleared)
  case clears =>
    rintro ⟨v, rfl, bit⟩
    cases (exec_wr_status v s).symm.trans h
    simp [bit]

/-- Settles O27: a write ends with ERR = OK or with an error over the old state. -/
theorem failingWriteChangesOnlyStatus : Obligations.FailingWriteChangesOnlyStatus := by
  intro i s t notRead notStatus h failed
  rcases endsAsWrite_exec s notRead notStatus with ⟨u, ends, ok⟩ | ⟨c, ends⟩
  · cases ends.symm.trans h
    exact absurd (congrArg Status.err ok) failed
  · cases ends.symm.trans h
    rfl

/-- Settles O28: decoding refuses the word before anything else, and the check of a round compares with R
before it looks at the stream. -/
theorem errorsAreReportedByPriority : Obligations.ErrorsAreReportedByPriority := by
  intro s v r
  refine ⟨fun noCommand => ?illegal, fun past => ?range, fun inBranch missing => ?short⟩
  case illegal => exact illegalCommandWordsRaiseOnly v s (illegal_of_not_isCommandWord noCommand)
  case range =>
    rw [exec_round, exec_iround]
    exact ⟨finishWrite_checkRound_range _ past, finishWrite_checkRound_range _ past⟩
  case short =>
    rw [exec_round, exec_iround]
    exact ⟨finishWrite_checkRound_schedShort _ inBranch missing,
      finishWrite_checkRound_schedShort _ inBranch missing⟩

end Sys2Proof.Machine
end

section
/-! The reset family: the cells of the reset values, and the two spellings of the reset state,
of a build and of a running core, hold the same registers. -/

namespace Sys2Proof.Machine

open Sys2Proof

/-- Every cell of the reset value of ST, TK1, TK2 and TK3 is zero. -/
theorem zeroCells_get (i : Fin 16) : zeroCells[i] = 0 :=
  Vector.getElem_replicate i.isLt

/-- R230: the reset state of a build holds the reset values. -/
theorem registersReset_resetOf (b : Build) : RegistersReset (State.resetOf b) := by
  refine ⟨fun i => ?cells, ?depth, fun t mem i => ?entry, rfl, rfl, rfl, rfl, rfl, rfl⟩
  case cells => exact ⟨zeroCells_get i, zeroCells_get i, zeroCells_get i, zeroCells_get i⟩
  case depth => exact (streamCanonical_resetOf b).1
  case entry =>
    rw [State.resetOf_rtk] at mem
    rw [List.eq_of_mem_replicate mem]
    exact zeroTweakey_get i

/-- R230: reset of a running core leaves the registers of its build's reset state; only the host's side
differs. -/
theorem registersReset_doReset (s : State) : RegistersReset s.doReset :=
  registersReset_resetOf s.build

/-- Settles O1: the registers are those of the build's reset state, and HWCFG is a word of the build, which
reset keeps. -/
theorem resetPutsEveryRegisterAtItsValue : Obligations.ResetPutsEveryRegisterAtItsValue := by
  refine ⟨fun b => ⟨registersReset_resetOf b, State.resetOf_build b, ?ofBuild⟩,
    fun s => ⟨registersReset_doReset s, ?ofCore⟩⟩
  case ofBuild => rw [busRead_hwcfg, State.resetOf_build]
  case ofCore => rw [busRead_hwcfg, busRead_hwcfg, State.doReset_build]

end Sys2Proof.Machine
end

section
/-! The decoding family: which words the command decoder answers, decoding and encoding as inverses of each
other, and writes to CMD of a command's own word (30_encoding.md R70 to R77). -/

namespace Sys2Proof.Machine

open Sys2Proof

/-! ### The command decoder -/

/-- R76: with no reserved bit set the command map decides. -/
theorem decodeCommand_of_no_reservedBits {v : Word64} (high : v.extractLsb' 16 48 = 0)
    (low : v.extractLsb' 6 6 = 0) :
    decodeCommand v = commandOf (v.extractLsb' 12 4) (v.extractLsb' 0 6) :=
  if_neg (not_or.mpr ⟨not_not_intro high, not_not_intro low⟩)

/-- R73: a command is a write to CMD of the opcode and the operand that the command map reads as it. -/
theorem encode_command {i : Instr} (command : isCommand i = true) :
    ∃ op imm, encode i = commandTx op imm ∧ commandOf op imm = .ok i := by
  cases i with
  | rd | wr => exact Bool.noConfusion command
  | _ => exact ⟨_, _, rfl, rfl⟩

theorem opcode_not_takes_operand_of_bare (op : BitVec 4)
    (bare : op ∈ [0x0, 0x1, 0x2, 0x3, 0x4, 0x5, 0x6, 0x9, 0xD, 0xE]) :
    op ∉ [0x7#4, 0x8, 0xA, 0xB, 0xC] := by
  revert op
  decide

/-- R73 to R75: the command map answers a command where OP is not reserved and an operand is not stray. -/
theorem commandOf_known {op : BitVec 4} {imm : BitVec 6} (known : op ≠ 0xF)
    (noStray : op ∈ [0x7, 0x8, 0xA, 0xB, 0xC] ∨ imm = 0) :
    ∃ i, commandOf op imm = .ok i ∧ isCommand i = true := by
  rcases opcode_takes_operand_or_bare op known with takes | bare
  · simp only [List.mem_cons, List.not_mem_nil, or_false] at takes
    rcases takes with rfl | rfl | rfl | rfl | rfl <;> exact ⟨_, rfl, rfl⟩
  · obtain rfl := noStray.resolve_left (opcode_not_takes_operand_of_bare op bare)
    simp only [List.mem_cons, List.not_mem_nil, or_false] at bare
    rcases bare with rfl | rfl | rfl | rfl | rfl | rfl | rfl | rfl | rfl | rfl <;>
      exact ⟨_, rfl, rfl⟩

/-- R71: a command word is decoded to the command whose word it is. -/
theorem decodeCommand_of_isCommandWord {v : Word64} (word : isCommandWord v = true) :
    ∃ i, decodeCommand v = .ok i ∧ isCommand i = true ∧
      encode i = { we := true, addr := cmdAddr, data := v } := by
  obtain ⟨high, low, known, noStray⟩ := (isCommandWord_iff v).mp word
  obtain ⟨i, answers, command⟩ := commandOf_known known noStray
  refine ⟨i, (decodeCommand_of_no_reservedBits high low).trans answers, command, ?_⟩
  rw [(encode_commandOf answers).1, commandTx, commandWord_of_fields v high low]

/-- R74 to R76: every other word is refused. -/
theorem decodeCommand_of_not_isCommandWord {v : Word64} (noWord : isCommandWord v = false) :
    ∃ e, decodeCommand v = .error e := by
  rcases illegal_of_not_isCommandWord noWord with opcode | ⟨bare, stray⟩ | reserved
  · exact decodeCommand_refuses_of_commandOf (opcode ▸ commandOf_reservedOpcode _)
  · exact decodeCommand_refuses_of_commandOf (commandOf_strayOperand bare stray)
  · exact ⟨_, decodeCommand_reservedBits reserved⟩

/-- Settles O13: the command words are those of `decodeCommand_of_isCommandWord`, and each kind of refusal
is one branch of the decoder or of the command map. -/
theorem commandDecoderAnswersExactlyCommandWords :
    Obligations.CommandDecoderAnswersExactlyCommandWords := by
  intro v
  refine ⟨decodeCommand_of_isCommandWord, decodeCommand_reservedBits,
    fun high low opcode => ?opcode, fun high low known noWord => ?stray⟩
  case opcode =>
    rw [decodeCommand_of_no_reservedBits high low, opcode, commandOf_reservedOpcode]
  case stray =>
    rw [decodeCommand_of_no_reservedBits high low]
    rcases illegal_of_not_isCommandWord noWord with opcode | ⟨bare, stray⟩ | high' | low'
    · exact absurd opcode known
    · exact commandOf_strayOperand bare stray
    · exact absurd high high'
    · exact absurd low low'

/-! ### Decoding and encoding transactions -/

/-- R71: a write of a command word to CMD decodes to its command. -/
theorem decode_write_commandWord {v : Word64} (word : isCommandWord v = true) :
    ∃ i, decode { we := true, addr := cmdAddr, data := v } = i ∧ isCommand i = true ∧
      encode i = { we := true, addr := cmdAddr, data := v } := by
  obtain ⟨i, answers, command, encoded⟩ := decodeCommand_of_isCommandWord word
  exact ⟨i, by rw [decode_write, if_pos rfl, answers], command, encoded⟩

/-- R71: a write that is no command is the plain WR. -/
theorem decode_write_plain {a : Addr} {v : Word64} (plain : (Instr.wr a v).wellFormed = true) :
    decode { we := true, addr := a, data := v } = .wr a v := by
  rw [decode_write]
  split
  case isFalse => rfl
  case isTrue atCmd =>
    subst atCmd
    obtain ⟨e, refused⟩ := decodeCommand_of_not_isCommandWord (v := v)
      (by simpa [Instr.wellFormed, cmdAddr] using plain)
    rw [refused]

theorem wellFormed_of_isCommand {i : Instr} (command : isCommand i = true) : i.wellFormed = true := by
  cases i with
  | rd | wr => exact Bool.noConfusion command
  | _ => rfl

/-- A well-formed instruction is what its transaction decodes to. -/
theorem decode_encode {i : Instr} (formed : i.wellFormed = true) : decode (encode i) = i := by
  by_cases command : isCommand i = true
  · obtain ⟨op, imm, encoded, answers⟩ := encode_command command
    rw [encoded, decode_commandTx answers]
  · cases i with
    | rd a => exact decode_read a 0
    | wr a v => exact decode_write_plain formed
    | _ => exact absurd rfl command

/-- R70: the notional 73-bit word holds the three fields of its transaction. -/
theorem ofWord_toWord (tx : BusTx) : BusTx.ofWord tx.toWord = tx := by
  obtain ⟨we, addr, data⟩ := tx
  simp only [BusTx.ofWord, BusTx.toWord, BusTx.mk.injEq]
  refine ⟨?we, ?addr, ?data⟩
  case we => simp only [BitVec.getLsbD_append]; simp
  case addr =>
    ext j hj
    simp only [BitVec.getElem_extractLsb', BitVec.getLsbD_append]
    rw [if_neg (by omega), if_pos (by omega), Nat.add_sub_cancel_left, BitVec.getLsbD_eq_getElem]
  case data =>
    ext j hj
    simp only [BitVec.getElem_extractLsb', BitVec.getLsbD_append]
    rw [if_pos (by omega), Nat.zero_add, BitVec.getLsbD_eq_getElem]

/-- Settles O11: through the transaction, and the 73-bit word loses nothing of the transaction. -/
theorem decodeOfEncodeIsTheInstruction : Obligations.DecodeOfEncodeIsTheInstruction := by
  intro i formed
  rw [ofWord_toWord]
  exact ⟨decode_encode formed, decode_encode formed⟩

/-- A write decodes to a well-formed instruction that is encoded as that write. -/
theorem encode_decode_write (a : Addr) (v : Word64) :
    (decode { we := true, addr := a, data := v }).wellFormed = true ∧
      encode (decode { we := true, addr := a, data := v }) = { we := true, addr := a, data := v } := by
  by_cases plain : (Instr.wr a v).wellFormed = true
  · rw [decode_write_plain plain]
    exact ⟨plain, rfl⟩
  · obtain ⟨rfl, word⟩ : a = cmdAddr ∧ isCommandWord v = true := by
      simpa [Instr.wellFormed, cmdAddr] using plain
    obtain ⟨i, rfl, command, encoded⟩ := decode_write_commandWord word
    exact ⟨wellFormed_of_isCommand command, encoded⟩

/-- Settles O12: the split is on WE. -/
theorem encodeOfDecodeIsTheTransaction : Obligations.EncodeOfDecodeIsTheTransaction := by
  rintro ⟨we, a, v⟩
  cases we with
  | false => exact ⟨rfl, nofun, fun _ => rfl⟩
  | true => exact ⟨(encode_decode_write a v).1, fun _ => (encode_decode_write a v).2, nofun⟩

theorem decode_wellFormed (tx : BusTx) : (decode tx).wellFormed = true :=
  (encodeOfDecodeIsTheTransaction tx).1

/-- Settles O14: the decoder evaluated on each word. -/
theorem wordsOfTheSpecDecode : Obligations.WordsOfTheSpecDecode := by
  refine ⟨?_, ?_, ?_, ?_, ?_, ?_, ?_, ?_, ?_, ?_⟩ <;> decide

/-! ### Writes to CMD -/

/-- Settles O23: the command's word is that of an opcode and an operand which the map reads as it. -/
theorem cmdWriteOfACommandWordIsTheCommand : Obligations.CmdWriteOfACommandWordIsTheCommand := by
  intro i s command
  obtain ⟨op, imm, encoded, answers⟩ := encode_command command
  rw [encoded]
  exact exec_wr_commandWord s answers command

/-- Settles O29: the words with OP = 0 are the word 0 and words with a stray operand or a reserved bit. -/
theorem nopOnlySetsErrOk : Obligations.NopOnlySetsErrOk := by
  intro s
  refine ⟨exec_nop s, exec_wr_commandWord (op := 0) (imm := 0) s rfl rfl, fun v opcode nonzero => ?_⟩
  refine illegalCommandWordsRaiseOnly v s (illegal_of_not_isCommandWord ?_)
  by_contra word
  obtain ⟨high, low, -, noStray⟩ := (isCommandWord_iff v).mp (eq_true_of_ne_false word)
  have bare : v.extractLsb' 0 6 = 0 := noStray.resolve_left (by rw [opcode]; decide)
  have zero := commandWord_of_fields v high low
  rw [opcode, bare] at zero
  exact nonzero zero.symm

end Sys2Proof.Machine
end

section
/-! The invariant family: everything that a well-formed instruction can do to the state, and what follows
for the invariant and for the writers of each register (10_state.md sections 1 to 3). -/

namespace Sys2Proof.Machine

open Sys2Proof

/-! ### What an instruction can do -/

/-- R201: a write that succeeded leaves ERR = OK over the new state. -/
def State.withOk (t : State) : State := t.withStatus (okStatus t.status)

/-- The instructions that write ST: WR ST and the commands but NOP, TKUPD and TKGEN (10_state.md R20). -/
def WritesCipherState (i : Instr) : Prop :=
  (∃ v, i = .wr 0x00 v) ∨ (isCommand i = true ∧ i ≠ .nop ∧ i ≠ .tkupd ∧ ∀ n, i ≠ .tkgen n)

/-- What a well-formed instruction can do: `Effect s i t` where executing `i` may take `s` to `t`. -/
inductive Effect (s : State) : Instr → State → Prop
  /-- an error over the old state (60_exceptions.md R203); which instruction raises which is left open -/
  | raised (i : Instr) (c : ErrCode) : Effect s i (raiseError c s)
  | read (a : Addr) : Effect s (.rd a) (s.respond (busRead s a))
  | status (v : Word64) : Effect s (.wr 0x06 v) (s.withStatus (writeStatus v s.status))
  | nop : Effect s .nop s.withOk
  | cipher {i : Instr} (x : Cells) (writes : WritesCipherState i) : Effect s i (s.withSt x).withOk
  | tk1 (v : Word64) : Effect s (.wr 0x01 v) (s.withTk1 (unpack16 v)).withOk
  | tk2 (v : Word64) : Effect s (.wr 0x02 v) (s.withTk2 (unpack16 v)).withOk
  | tk3 (v : Word64) : Effect s (.wr 0x03 v) (s.withTk3 (unpack16 v)).withOk
  | cfg (v : Word64) (legal : CfgLegal s.build.nMax (cfgOfWord v)) :
      Effect s (.wr 0x04 v) (s.withCfg (cfgOfWord v)).withOk
  | tkupd (x y z : Cells) : Effect s .tkupd (((s.withTk1 x).withTk2 y).withTk3 z).withOk
  | tkgen (n : BitVec 6) (fits : n.toNat ≤ s.build.nMax) :
      Effect s (.tkgen n) (s.withStream (generatedStream s n.toNat) n.toNat).withOk

/-- `i` takes `s` to a next state, and this is one of its effects. -/
def HasEffect (s : State) (i : Instr) (o : Host.Outcome State Fault Refusal) : Prop :=
  ∃ t, o = .next t ∧ Effect s i t

theorem hasEffect_error (s : State) (i : Instr) (c : ErrCode) :
    HasEffect s i (finishWrite s (.error c)) :=
  ⟨_, rfl, .raised i c⟩

theorem hasEffect_cipher {i : Instr} (s : State) (x : Cells) (writes : WritesCipherState i) :
    HasEffect s i (finishWrite s (.ok (s.withSt x))) :=
  ⟨_, rfl, .cipher x writes⟩

/-- A new ST behind a check. -/
theorem hasEffect_cipher_map {i : Instr} (s : State) (x : Cells) (check : Except ErrCode Unit)
    (writes : WritesCipherState i) : HasEffect s i (finishWrite s (check.map fun _ => s.withSt x)) := by
  cases check with
  | error c => exact hasEffect_error s i c
  | ok => exact hasEffect_cipher s x writes

/-- A new ST behind the check of one condition. -/
theorem hasEffect_cipher_ite {i : Instr} (s : State) (x : Cells) (p : Prop) [Decidable p] (c : ErrCode)
    (writes : WritesCipherState i) :
    HasEffect s i (finishWrite s (if p then .error c else .ok (s.withSt x))) := by
  split
  · exact hasEffect_error s i c
  · exact hasEffect_cipher s x writes

theorem hasEffect_command {i : Instr} (s : State) (command : isCommand i = true) :
    HasEffect s i (exec i s) := by
  cases i with
  | rd | wr => exact Bool.noConfusion command
  | nop => exact ⟨_, rfl, .nop⟩
  | tkupd => exact ⟨_, rfl, .tkupd _ _ _⟩
  | tkgen n =>
    rcases Nat.lt_or_ge s.build.nMax n.toNat with beyond | fits
    · exact ⟨_, exec_tkgen_of_gt beyond, .raised _ _⟩
    · exact ⟨_, exec_tkgen_of_le fits, .tkgen n fits⟩
  | sub | isub | perm | iperm | mix | imix =>
    exact hasEffect_cipher s _ (.inr ⟨command, nofun, nofun, nofun⟩)
  | addc | addtk => exact hasEffect_cipher_ite s _ _ _ (.inr ⟨command, nofun, nofun, nofun⟩)
  | round | iround | enc | dec =>
    exact hasEffect_cipher_map s _ _ (.inr ⟨command, nofun, nofun, nofun⟩)

/-- A plain write; of a command word to CMD it would be the command. -/
theorem hasEffect_wr {a : Addr} {v : Word64} (s : State) (plain : (Instr.wr a v).wellFormed = true) :
    HasEffect s (.wr a v) (exec (.wr a v) s) := by
  rcases regAt_spec s.build.nMax a with ⟨rfl, -⟩ | ⟨rfl, -⟩ | ⟨rfl, -⟩ | ⟨rfl, -⟩ | ⟨rfl, -⟩ |
    ⟨rfl, -⟩ | ⟨rfl, -⟩ | ⟨rfl, -⟩ | ⟨rfl, -⟩ | ⟨low, high, -⟩ | ⟨named, outside, -⟩
  · exact hasEffect_cipher s _ (.inl ⟨v, rfl⟩)
  · exact ⟨_, rfl, .tk1 v⟩
  · exact ⟨_, rfl, .tk2 v⟩
  · exact ⟨_, rfl, .tk3 v⟩
  · by_cases legal : CfgLegal s.build.nMax (cfgOfWord v)
    · exact ⟨_, writeCfg_of_legal legal, .cfg v legal⟩
    · exact ⟨_, writeCfg_of_not_legal legal, .raised _ _⟩
  · obtain ⟨e, refused⟩ := decodeCommand_of_not_isCommandWord (v := v)
      (by simpa [Instr.wellFormed] using plain)
    exact ⟨_, exec_wr_cmd_error s refused, .raised _ _⟩
  · exact ⟨_, rfl, .status v⟩
  · exact hasEffect_error s _ .roWrite
  · exact hasEffect_error s _ .roWrite
  · rw [exec_wr_entry v (Nat.add_sub_cancel' low).symm (by omega)]
    exact hasEffect_error s _ .roWrite
  · rw [exec_wr_unmapped v named outside]
    exact hasEffect_error s _ .badAddr

/-- Every well-formed instruction has one of the effects. -/
theorem effect_of_exec {i : Instr} {s t : State} (formed : i.wellFormed = true)
    (completes : exec i s = .next t) : Effect s i t := by
  have effect : HasEffect s i (exec i s) := by
    cases i with
    | rd a => exact ⟨_, exec_rd a s, .read a⟩
    | wr a v => exact hasEffect_wr s formed
    | _ => exact hasEffect_command s rfl
  obtain ⟨u, ends, effect⟩ := effect
  cases ends.symm.trans completes
  exact effect

/-! ### The writers of each register -/

@[simp] theorem State.withOk_st (s : State) : s.withOk.st = s.st := rfl
@[simp] theorem State.withOk_tk1 (s : State) : s.withOk.tk1 = s.tk1 := rfl
@[simp] theorem State.withOk_tk2 (s : State) : s.withOk.tk2 = s.tk2 := rfl
@[simp] theorem State.withOk_tk3 (s : State) : s.withOk.tk3 = s.tk3 := rfl
@[simp] theorem State.withOk_rtk (s : State) : s.withOk.rtk = s.rtk := rfl
@[simp] theorem State.withOk_rtkLen (s : State) : s.withOk.rtkLen = s.rtkLen := rfl
@[simp] theorem State.withOk_cfg (s : State) : s.withOk.cfg = s.cfg := rfl
@[simp] theorem State.withOk_status (s : State) : s.withOk.status = okStatus s.status := rfl
@[simp] theorem State.withOk_build (s : State) : s.withOk.build = s.build := rfl
@[simp] theorem State.withOk_pending (s : State) : s.withOk.pending = s.pending := rfl
@[simp] theorem State.withOk_responses (s : State) : s.withOk.responses = s.responses := rfl

/-- Settles O10: each effect writes the registers of its own instruction and no others. -/
theorem onlyNamedInstructionsWriteEachRegister :
    Obligations.OnlyNamedInstructionsWriteEachRegister := by
  intro i s t formed completes
  cases effect_of_exec formed completes with
  | cipher x writes => exact ⟨fun _ => writes, by simp⟩
  | _ => simp

/-! ### The invariant -/

/-- Every effect of an instruction keeps the invariant. -/
theorem inv_of_effect {i : Instr} {s t : State} (inv : Inv s) (effect : Effect s i t) : Inv t := by
  obtain ⟨legal, stream, legalCfg, code⟩ := inv
  cases effect with
  | raised i c => exact ⟨legal, stream, legalCfg, (errCode_range c).2⟩
  | read a => exact ⟨legal, stream, legalCfg, code⟩
  | status v => exact ⟨legal, stream, legalCfg, by simpa using code⟩
  | cfg v newLegal => exact ⟨legal, stream, newLegal, Nat.zero_le 6⟩
  | tkgen n fits => exact ⟨legal, streamCanonical_tkgen s n.toNat fits, legalCfg, Nat.zero_le 6⟩
  | nop | cipher | tk1 | tk2 | tk3 | tkupd => exact ⟨legal, stream, legalCfg, Nat.zero_le 6⟩

end Sys2Proof.Machine
end

section
/-! The step family: what one step does with each event of the host, the invariant along steps, and a host
program as its instructions one after the other (20_memory.md sections 4 and 5, 70_reset_and_hazards.md). -/

namespace Sys2Proof.Machine

open Sys2Proof

/-! ### One step -/

theorem step_of_idle {s : State} (idle : s.pending = []) : step s = .next s := by
  rw [step, takeNextEvent, idle]

theorem step_of_event {s : State} {e : HostEvent} {rest : List HostEvent} (next : s.pending = e :: rest) :
    step s = takeEvent e (s.withPending rest) := by
  rw [step, takeNextEvent, next]

theorem step_of_transaction {s : State} {tx : BusTx} {rest : List HostEvent}
    (next : s.pending = .transaction tx :: rest) : step s = exec (decode tx) (s.withPending rest) :=
  step_of_event next

/-- R230: both reset events do the same. -/
theorem step_of_reset {s : State} {e : HostEvent} {rest : List HostEvent} (next : s.pending = e :: rest)
    (reset : e = .reset ∨ ∃ tx, e = .resetDuring tx) : step s = .next (s.withPending rest).doReset := by
  rw [step_of_event next]
  rcases reset with rfl | ⟨tx, rfl⟩ <;> rfl

/-- Everything that a step can be. -/
theorem step_cases (s : State) :
    (s.pending = [] ∧ step s = .next s) ∨
    (∃ tx rest, s.pending = .transaction tx :: rest ∧
      step s = exec (decode tx) (s.withPending rest)) ∨
    (∃ e rest, s.pending = e :: rest ∧ (e = .reset ∨ ∃ tx, e = .resetDuring tx) ∧
      step s = .next (s.withPending rest).doReset) := by
  cases next : s.pending with
  | nil => exact .inl ⟨rfl, step_of_idle next⟩
  | cons e rest =>
    cases e with
    | transaction tx => exact .inr (.inl ⟨tx, rest, rfl, step_of_transaction next⟩)
    | reset => exact .inr (.inr ⟨_, rest, rfl, .inl rfl, step_of_reset next (.inl rfl)⟩)
    | resetDuring tx =>
      exact .inr (.inr ⟨_, rest, rfl, .inr ⟨tx, rfl⟩, step_of_reset next (.inr ⟨tx, rfl⟩)⟩)

/-- Settles O4: an empty queue is the idle case of a step. -/
theorem idleCoreHoldsItsState : Obligations.IdleCoreHoldsItsState :=
  fun _ idle => step_of_idle idle

/-- Settles O2: either reset event ends in the reset of the running core. -/
theorem resetEventResetsTheCore : Obligations.ResetEventResetsTheCore := by
  intro s e rest next reset
  exact ⟨_, step_of_reset next reset, registersReset_doReset _, rfl, rfl, rfl⟩

/-- Settles O3: R = R0 = RTK_LEN = 0, so an engine run is zero rounds long, and every other index is past
the end. -/
theorem afterResetOnlyEmptyEngineRunsSucceed : Obligations.AfterResetOnlyEmptyEngineRunsSucceed := by
  intro b k s
  refine ⟨?enc, ?dec, ?addtk, ?round, ?iround⟩
  case enc => exact (exec_enc s).trans (finishWrite_checkEngine_ok _ (Nat.le_refl 0))
  case dec => exact (exec_dec s).trans (finishWrite_checkEngine_ok _ (Nat.le_refl 0))
  case addtk => rw [exec_addtk_of_ge (Nat.zero_le _)]; rfl
  case round => exact (exec_round k s).trans (finishWrite_checkRound_range _ (Nat.zero_le _))
  case iround => exact (exec_iround k s).trans (finishWrite_checkRound_range _ (Nat.zero_le _))

/-! ### Opcode-table words -/

/-- A word that the table decoder reads is placed as a transaction that decodes to the same instruction. -/
theorem decode_tableTx {nbits w : Nat} {i : Instr} (reads : decodeTableWord nbits w = some i) :
    decode (tableTx nbits w) = i := by
  unfold decodeTableWord at reads
  split at reads
  · split at reads
    · split at reads
      · exact Option.some.inj reads
      · cases reads
    · cases reads
  · split at reads
    · exact Option.some.inj reads
    · cases reads

/-- Settles O5: the three forms place the same transaction first in the queue. -/
theorem stepRunsTheDecodedTransaction : Obligations.StepRunsTheDecodedTransaction := by
  refine ⟨fun s tx rest next => step_of_transaction next, fun s i rest formed next => ?encoded,
    fun s nbits w i reads => ?table⟩
  case encoded =>
    rw [step_of_transaction next, decode_encode formed]
    rfl
  case table =>
    rw [step_of_transaction (s := s.withFetchWord nbits w) rfl, decode_tableTx reads]
    rfl

/-! ### Completion and the invariant -/

theorem exec_completes (i : Instr) (s : State) : ∃ t, exec i s = .next t := by
  obtain ⟨t, completes, -⟩ := everyWriteAssignsErrOnce i s
  exact ⟨t, completes⟩

/-- Settles O7: a step is idle, an instruction, or a reset. -/
theorem everyTransactionCompletes : Obligations.EveryTransactionCompletes := by
  refine ⟨exec_completes, fun s => ?step⟩
  rcases step_cases s with ⟨-, holds⟩ | ⟨tx, rest, -, runs⟩ | ⟨-, rest, -, -, resets⟩
  · exact ⟨_, holds⟩
  · exact runs ▸ exec_completes (decode tx) (s.withPending rest)
  · exact ⟨_, resets⟩

theorem inv_resetOf {b : Build} (legal : LegalBuild b) : Inv (State.resetOf b) :=
  ⟨legal, streamCanonical_resetOf b, ⟨Nat.le_refl 0, Nat.zero_le _⟩, Nat.zero_le 6⟩

/-- The queue and the host's words are no part of the invariant. -/
theorem inv_doReset {s : State} (inv : Inv s) : Inv s.doReset := inv_resetOf inv.1

theorem inv_withPending {s : State} (evs : List HostEvent) (inv : Inv s) : Inv (s.withPending evs) := inv

theorem legalBuild_defaultBuild : LegalBuild defaultBuild := by
  refine ⟨?sbox, ?perm, ?tkPerm, ?left, ?right, ?depth⟩ <;> decide

/-- Settles O8: the base case of the invariant, with the default tables evaluated. -/
theorem resetMeetsTheInvariant : Obligations.ResetMeetsTheInvariant :=
  ⟨fun _ legal => inv_resetOf legal, legalBuild_defaultBuild, inv_resetOf legalBuild_defaultBuild⟩

/-- Settles O9: the decoder answers well-formed instructions, whose effects keep the invariant. -/
theorem everyStepKeepsTheInvariant : Obligations.EveryStepKeepsTheInvariant := by
  intro s t inv completes
  rcases step_cases s with ⟨-, holds⟩ | ⟨tx, rest, -, runs⟩ | ⟨-, rest, -, -, resets⟩
  · cases holds.symm.trans completes
    exact inv
  · exact inv_of_effect (inv_withPending rest inv)
      (effect_of_exec (decode_wellFormed tx) (runs.symm.trans completes))
  · cases resets.symm.trans completes
    exact inv_doReset (inv_withPending rest inv)

/-- Only the write of `v` to an address decodes to WR. -/
theorem eq_of_decode_eq_wr {tx : BusTx} {a : Addr} {v : Word64} (h : decode tx = .wr a v) :
    tx = { we := true, addr := a, data := v } := by
  obtain ⟨-, write, -⟩ := encodeOfDecodeIsTheTransaction tx
  cases we : tx.we with
  | true => rw [← write we, h]; rfl
  | false => simp [decode, we] at h

/-- Settles O26: of the instructions only a STATUS write with bit 8 clears STICKY, and the transaction of
a STATUS write is known from what it decodes to. -/
theorem stepThatClearsStickyTookStatusWriteOrReset :
    Obligations.StepThatClearsStickyTookStatusWriteOrReset := by
  intro s t completes set cleared
  rcases step_cases s with ⟨-, holds⟩ | ⟨tx, rest, next, runs⟩ | ⟨e, rest, next, reset, -⟩
  · cases holds.symm.trans completes
    exact Bool.noConfusion (set.symm.trans cleared)
  · obtain ⟨-, clearing, -⟩ := stickyIsClearedOnlyByStatusWriteOrReset
    obtain ⟨v, isStatusWrite, bit⟩ :=
      (clearing _ _ _ (runs.symm.trans completes) set).mp cleared
    exact .inl ⟨v, rest, bit, eq_of_decode_eq_wr isStatusWrite ▸ next⟩
  · rcases reset with rfl | ⟨tx, rfl⟩
    · exact .inr (.inl ⟨rest, next⟩)
    · exact .inr (.inr ⟨tx, rest, next⟩)

end Sys2Proof.Machine
end

section
/-! The laws of the nibble primitives and of the round engine: what undoes what, the range of a round's
indices, and what a run of rounds depends on (40_nibble_primitives.md section 3, 42_round_engine.md). -/

namespace Sys2Proof.Machine

open Sys2Proof

/-! ### The primitives undo each other -/

theorem isubCells_subCells {b : Build} (hb : LegalBuild b) (s : Cells) :
    isubCells b (subCells b s) = s :=
  cells_ext fun i => by rw [isubCells_get, subCells_get, sboxInvAt_sboxAt hb]

theorem subCells_isubCells {b : Build} (hb : LegalBuild b) (s : Cells) :
    subCells b (isubCells b s) = s :=
  cells_ext fun i => by rw [subCells_get, isubCells_get, sboxAt_sboxInvAt hb]

theorem unpermuteCells_permuteCells {b : Build} (hb : LegalBuild b) (s : Cells) :
    unpermuteCells b (permuteCells b s) = s :=
  cells_ext fun i => by simp only [unpermuteCells_get, permuteCells_get, perm_permInvAt hb]

theorem permuteCells_unpermuteCells {b : Build} (hb : LegalBuild b) (s : Cells) :
    permuteCells b (unpermuteCells b s) = s :=
  cells_ext fun i => by rw [permuteCells_get, unpermuteCells_get_perm hb]

/-- R102: MIXM_INV · MIXM = 1, so un-mixing undoes mixing. -/
theorem undiffuse_diffuse {b : Build} (hb : LegalBuild b) (s : Cells) : undiffuse b (diffuse b s) = s := by
  obtain ⟨-, -, -, inv_mul_mixm, -⟩ := hb
  rw [diffuse, undiffuse, mixColumns_mixColumns, inv_mul_mixm, mixColumns_one4]

theorem xor_xor_self (x y : Cell) : x ^^^ y ^^^ y = x := by
  rw [BitVec.xor_assoc, BitVec.xor_self, BitVec.xor_zero]

/-- R103: the same constants twice cancel, on the three cells they reach. -/
theorem addConstants_addConstants (b : Build) (c : Nat) (s : Cells) :
    addConstants b c (addConstants b c s) = s := by
  apply cells_ext
  intro i
  by_cases h0 : i = 0
  · subst h0
    exact xor_xor_self _ _
  by_cases h4 : i = 4
  · subst h4
    exact xor_xor_self _ _
  by_cases h8 : i = 8
  · subst h8
    exact xor_xor_self _ _
  · rw [addConstants_get_other b c _ h0 h4 h8, addConstants_get_other b c _ h0 h4 h8]

/-- R104: the same round-tweakey twice cancels, on the eight cells it reaches. -/
theorem addTweakey_addTweakey (t : RoundTweakey) (s : Cells) : addTweakey t (addTweakey t s) = s := by
  apply cells_ext
  intro i
  by_cases low : i.val < 8
  · have cell (x : Cells) : (addTweakey t x)[i] = x[i] ^^^ t[i.val] :=
      addTweakey_get_low t x ⟨i.val, low⟩
    rw [cell, cell, xor_xor_self]
  · rw [addTweakey_get_high t _ (by omega), addTweakey_get_high t _ (by omega)]

/-- Settles O35: a law for each pair. -/
theorem nibblePrimitivesUndoEachOther : Obligations.NibblePrimitivesUndoEachOther := by
  intro b s t c hb
  exact ⟨isubCells_subCells hb s, subCells_isubCells hb s, unpermuteCells_permuteCells hb s,
    permuteCells_unpermuteCells hb s, undiffuse_diffuse hb s, diffuse_undiffuse hb s,
    addConstants_addConstants b c s, addTweakey_addTweakey t s⟩

/-! ### Rounds undo each other -/

theorem roundInv_roundFwd {b : Build} (hb : LegalBuild b) (t : RoundTweakey) (c : Nat) (x : Cells) :
    roundInv b t c (roundFwd b t c x) = x := by
  rw [roundInv, roundFwd, undiffuse_diffuse hb, unpermuteCells_permuteCells hb, addTweakey_addTweakey,
    addConstants_addConstants, isubCells_subCells hb]

theorem roundFwd_roundInv {b : Build} (hb : LegalBuild b) (t : RoundTweakey) (c : Nat) (x : Cells) :
    roundFwd b t c (roundInv b t c x) = x := by
  rw [roundInv, roundFwd, subCells_isubCells hb, addConstants_addConstants, addTweakey_addTweakey,
    permuteCells_unpermuteCells hb, diffuse_undiffuse hb]

/-- Settles O44: the five operations are undone from the outside in. -/
theorem inverseRoundUndoesTheForwardRound : Obligations.InverseRoundUndoesTheForwardRound :=
  fun _ t c x hb => ⟨roundInv_roundFwd hb t c x, roundFwd_roundInv hb t c x⟩

/-- R178: the rounds of DEC undo the rounds of ENC, the last round first. -/
theorem decRounds_encRounds {s : State} (hb : LegalBuild s.build) (n : Nat) (x : Cells) :
    s.decRounds n (s.encRounds n x) = x := by
  induction n with
  | zero => rfl
  | succ n ih => rw [State.encRounds, State.decRounds, State.roundInvAt, State.roundAt,
      roundInv_roundFwd hb, ih]

/-- R178: the rounds of ENC undo the rounds of DEC, the first round first. -/
theorem encRounds_decRounds {s : State} (hb : LegalBuild s.build) (n : Nat) (x : Cells) :
    s.encRounds n (s.decRounds n x) = x := by
  induction n generalizing x with
  | zero => rfl
  | succ n ih => rw [State.decRounds, State.encRounds, ih, State.roundAt, State.roundInvAt,
      roundFwd_roundInv hb]

/-! ### The indices of a round -/

/-- R170: the stream index of a round of the branch is one of the first R + R0. -/
theorem streamIndex_lt (c : Cfg) {r : Nat} (inBranch : r < c.r.toNat) :
    streamIndex c r < c.r.toNat + c.r0.toNat := by
  unfold streamIndex
  split <;> omega

/-- Settles O43: the stream index is bounded by the legality of CFG, and the constant index is the stream
index or the round itself. -/
theorem roundIndicesStayInRange : Obligations.RoundIndicesStayInRange := by
  intro b c r hb legal inBranch
  obtain ⟨-, -, -, -, -, -, depth⟩ := hb
  have fits := legal.2
  have index := streamIndex_lt c inBranch
  refine ⟨by omega, ?_⟩
  rw [constantIndex_eq_ite]
  split <;> omega

/-- R170: with RI = R or with R0 = 0 no round of the branch skips. -/
theorem streamIndex_of_no_skip {c : Cfg} {r : Nat} (noSkip : c.ri = c.r ∨ c.r0 = 0)
    (inBranch : r < c.r.toNat) : streamIndex c r = r := by
  rcases noSkip with noFork | noGap
  · exact if_pos (noFork ▸ inBranch)
  · unfold streamIndex
    rw [noGap]
    exact ite_self r

/-! ### What a run of rounds depends on -/

/-- Rounds read the build, the stream and CFG only. -/
theorem roundAt_congr {s t : State} (build : t.build = s.build) (rtk : t.rtk = s.rtk)
    (cfg : t.cfg = s.cfg) : t.roundAt = s.roundAt := by
  funext r x
  rw [roundAt_eq, roundAt_eq, build, rtk, cfg]

theorem roundInvAt_congr {s t : State} (build : t.build = s.build) (rtk : t.rtk = s.rtk)
    (cfg : t.cfg = s.cfg) : t.roundInvAt = s.roundInvAt := by
  funext r x
  rw [roundInvAt_eq, roundInvAt_eq, build, rtk, cfg]

theorem encRounds_congr {s t : State} (build : t.build = s.build) (rtk : t.rtk = s.rtk)
    (cfg : t.cfg = s.cfg) : t.encRounds = s.encRounds := by
  funext n x
  rw [encRounds_eq_foldl, encRounds_eq_foldl, roundAt_congr build rtk cfg]

theorem decRounds_congr {s t : State} (build : t.build = s.build) (rtk : t.rtk = s.rtk)
    (cfg : t.cfg = s.cfg) : t.decRounds = s.decRounds := by
  funext n x
  rw [decRounds_eq_foldr, decRounds_eq_foldr, roundInvAt_congr build rtk cfg]

theorem encRounds_eq_of_roundAt_eq {s t : State} {n : Nat} (x : Cells)
    (same : ∀ r, r < n → t.roundAt r = s.roundAt r) : t.encRounds n x = s.encRounds n x := by
  induction n with
  | zero => rfl
  | succ n ih =>
    rw [State.encRounds, State.encRounds, same n (Nat.lt_succ_self n),
      ih fun r hr => same r (Nat.lt_succ_of_lt hr)]

/-! ### The commands of the engine -/

/-- `s` with `x` in ST and ERR = OK, the end of every command of the engine that succeeds (R201). -/
def State.withText (s : State) (x : Cells) : State := (s.withSt x).withOk

theorem exec_enc_of_le {s : State} (long : s.cfg.r.toNat + s.cfg.r0.toNat ≤ s.rtkLen) :
    exec .enc s = .next (s.withText (s.encRounds s.cfg.r.toNat s.st)) :=
  (exec_enc s).trans (finishWrite_checkEngine_ok _ long)

theorem exec_dec_of_le {s : State} (long : s.cfg.r.toNat + s.cfg.r0.toNat ≤ s.rtkLen) :
    exec .dec s = .next (s.withText (s.decRounds s.cfg.r.toNat s.st)) :=
  (exec_dec s).trans (finishWrite_checkEngine_ok _ long)

theorem encRounds_withText (s : State) (x : Cells) : (s.withText x).encRounds = s.encRounds :=
  encRounds_congr rfl rfl rfl

theorem decRounds_withText (s : State) (x : Cells) : (s.withText x).decRounds = s.decRounds :=
  decRounds_congr rfl rfl rfl

/-- ENC from any ST, under the CFG and stream of `s`. -/
theorem exec_enc_withSt {s : State} (long : s.cfg.r.toNat + s.cfg.r0.toNat ≤ s.rtkLen) (x : Cells) :
    exec .enc (s.withSt x) = .next (s.withText (s.encRounds s.cfg.r.toNat x)) := by
  rw [exec_enc_of_le (s := s.withSt x) long, encRounds_congr (t := s.withSt x) (s := s) rfl rfl rfl]
  rfl

/-- ENC after another command of the engine. -/
theorem exec_enc_withText {s : State} (long : s.cfg.r.toNat + s.cfg.r0.toNat ≤ s.rtkLen) (x : Cells) :
    exec .enc (s.withText x) = .next (s.withText (s.encRounds s.cfg.r.toNat x)) := by
  rw [exec_enc_of_le (s := s.withText x) long, encRounds_withText]
  rfl

/-- DEC after another command of the engine. -/
theorem exec_dec_withText {s : State} (long : s.cfg.r.toNat + s.cfg.r0.toNat ≤ s.rtkLen) (x : Cells) :
    exec .dec (s.withText x) = .next (s.withText (s.decRounds s.cfg.r.toNat x)) := by
  rw [exec_dec_of_le (s := s.withText x) long, decRounds_withText]
  rfl

theorem execAll_pair {i j : Instr} {s t u : State} (first : exec i s = .next t)
    (second : exec j t = .next u) : execAll [i, j] s = .next u := by
  rw [execAll_cons first, execAll_cons second, execAll_nil]

/-- Settles O49: each engine run ends in its rounds over ST, and the two runs of rounds undo each other. -/
theorem encryptionAndDecryptionRoundTrip : Obligations.EncryptionAndDecryptionRoundTrip := by
  intro s hb long
  refine ⟨⟨_, execAll_pair (exec_enc_of_le long) (exec_dec_withText long _), ?encDec⟩,
    ⟨_, execAll_pair (exec_dec_of_le long) (exec_enc_withText long _), ?decEnc⟩⟩
  case encDec => rw [decRounds_encRounds hb]; rfl
  case decEnc => rw [encRounds_decRounds hb]; rfl

/-- Settles O51: the one ST that ENC sends to `y` is what DEC makes of `y`. -/
theorem encIsABijectionOfTheCipherState : Obligations.EncIsABijectionOfTheCipherState := by
  intro s hb long y
  refine ⟨s.decRounds s.cfg.r.toNat y, ?result, fun x encrypts => ?unique⟩
  case result =>
    exact (exec_enc_withSt long _).trans (by rw [encRounds_decRounds hb]; rfl)
  case unique =>
    have next := Host.Outcome.next.inj ((exec_enc_withSt long x).symm.trans encrypts)
    have text : s.encRounds s.cfg.r.toNat x = y := congrArg State.st next
    rw [← text, decRounds_encRounds hb]

/-- `s` under the unforked configuration (R, R, 0). -/
def State.unforked (s : State) : State := s.withCfg { r := s.cfg.r, ri := s.cfg.r, r0 := 0 }

/-- Where no round of the branch skips, each is the round of the unforked configuration. -/
theorem roundAt_unforked {s : State} (noSkip : s.cfg.ri = s.cfg.r ∨ s.cfg.r0 = 0) {r : Nat}
    (inBranch : r < s.cfg.r.toNat) : s.unforked.roundAt r = s.roundAt r := by
  have forkedIndex := streamIndex_of_no_skip noSkip inBranch
  have unforkedIndex : streamIndex s.unforked.cfg r = r := streamIndex_of_no_skip (.inl rfl) inBranch
  funext x
  rw [roundAt_eq, roundAt_eq, constantIndex_eq_ite, constantIndex_eq_ite, forkedIndex, unforkedIndex]
  rfl

/-- Settles O53: the two runs agree round by round. -/
theorem forkWithoutSkipHasNoEffect : Obligations.ForkWithoutSkipHasNoEffect := by
  intro s noSkip long
  have stillLong : s.unforked.cfg.r.toNat + s.unforked.cfg.r0.toNat ≤ s.unforked.rtkLen :=
    Nat.le_trans (Nat.le_add_right s.cfg.r.toNat s.cfg.r0.toNat) long
  exact ⟨_, _, exec_enc_of_le long, exec_enc_of_le stillLong,
    (encRounds_eq_of_roundAt_eq s.st fun _ => roundAt_unforked noSkip).symm⟩

/-! ### Single rounds -/

/-- R174: a round of the branch whose stream entry is generated. -/
theorem exec_round_of_lt {s : State} {r : BitVec 6} (inBranch : r.toNat < s.cfg.r.toNat)
    (generated : streamIndex s.cfg r.toNat < s.rtkLen) :
    exec (.round r) s = .next (s.withText (s.roundAt r.toNat s.st)) :=
  (exec_round r s).trans (finishWrite_checkRound_ok _ inBranch generated)

/-- R175: the same for the inverse round. -/
theorem exec_iround_of_lt {s : State} {r : BitVec 6} (inBranch : r.toNat < s.cfg.r.toNat)
    (generated : streamIndex s.cfg r.toNat < s.rtkLen) :
    exec (.iround r) s = .next (s.withText (s.roundInvAt r.toNat s.st)) :=
  (exec_iround r s).trans (finishWrite_checkRound_ok _ inBranch generated)

/-- A round of the branch fits IMM6. -/
theorem toNat_round {c : Cfg} {r : Nat} (inBranch : r < c.r.toNat) : (BitVec.ofNat 6 r).toNat = r := by
  rw [BitVec.toNat_ofNat]
  omega

/-- ROUND `r` of the branch from any ST and STATUS, on a stream long enough for the whole branch. -/
theorem exec_round_ofNat {s : State} (long : s.cfg.r.toNat + s.cfg.r0.toNat ≤ s.rtkLen) {r : Nat}
    (inBranch : r < s.cfg.r.toNat) (x : Cells) (z : Status) :
    exec (.round (BitVec.ofNat 6 r)) ((s.withSt x).withStatus z) =
      .next ((s.withSt (s.roundAt r x)).withStatus (okStatus z)) := by
  have index := streamIndex_lt s.cfg inBranch
  have operand := toNat_round inBranch
  rw [exec_round_of_lt (by rwa [operand]) (by rw [operand]; exact Nat.lt_of_lt_of_le index long), operand]
  rfl

/-- IROUND `r` of the branch, the same. -/
theorem exec_iround_ofNat {s : State} (long : s.cfg.r.toNat + s.cfg.r0.toNat ≤ s.rtkLen) {r : Nat}
    (inBranch : r < s.cfg.r.toNat) (x : Cells) (z : Status) :
    exec (.iround (BitVec.ofNat 6 r)) ((s.withSt x).withStatus z) =
      .next ((s.withSt (s.roundInvAt r x)).withStatus (okStatus z)) := by
  have index := streamIndex_lt s.cfg inBranch
  have operand := toNat_round inBranch
  rw [exec_iround_of_lt (by rwa [operand]) (by rw [operand]; exact Nat.lt_of_lt_of_le index long), operand]
  rfl

/-- The first `n` rounds of ENC, each by its command; STATUS is that of the last one, if there is one. -/
theorem execAll_rounds {s : State} (long : s.cfg.r.toNat + s.cfg.r0.toNat ≤ s.rtkLen) {n : Nat}
    (fits : n ≤ s.cfg.r.toNat) :
    ∃ z, execAll ((List.range n).map fun r => .round (BitVec.ofNat 6 r)) s =
      .next ((s.withSt (s.encRounds n s.st)).withStatus z) := by
  induction n with
  | zero => exact ⟨s.status, rfl⟩
  | succ n ih =>
    obtain ⟨z, before⟩ := ih (Nat.le_of_succ_le fits)
    refine ⟨okStatus z, ?_⟩
    rw [List.range_succ, List.map_append, execAll_append before]
    exact execAll_cons (exec_round_ofNat long fits _ z) []

/-- The last `n` rounds of DEC, each by its command, from any ST and STATUS. -/
theorem execAll_irounds {s : State} (long : s.cfg.r.toNat + s.cfg.r0.toNat ≤ s.rtkLen) {n : Nat}
    (fits : n ≤ s.cfg.r.toNat) (x : Cells) (z : Status) :
    ∃ z', execAll ((List.range n).reverse.map fun r => .iround (BitVec.ofNat 6 r))
        ((s.withSt x).withStatus z) = .next ((s.withSt (s.decRounds n x)).withStatus z') := by
  induction n generalizing x z with
  | zero => exact ⟨z, rfl⟩
  | succ n ih =>
    obtain ⟨z', after⟩ := ih (Nat.le_of_succ_le fits) (s.roundInvAt n x) (okStatus z)
    refine ⟨z', ?_⟩
    rw [List.range_succ, List.reverse_append, List.reverse_singleton, List.singleton_append,
      List.map_cons, execAll_cons (exec_iround_ofNat long fits x z)]
    exact after

/-- Settles O50: an engine run and its single commands leave the same rounds of ST. -/
theorem engineRunsDecomposeIntoRounds : Obligations.EngineRunsDecomposeIntoRounds := by
  intro s long
  obtain ⟨z, rounds⟩ := execAll_rounds long (Nat.le_refl s.cfg.r.toNat)
  obtain ⟨z', irounds⟩ := execAll_irounds long (Nat.le_refl s.cfg.r.toNat) s.st s.status
  exact ⟨_, _, exec_enc_of_le long, exec_dec_of_le long, ⟨_, rounds, rfl⟩, ⟨_, irounds, rfl⟩⟩

end Sys2Proof.Machine
end

section
/-! What instructions do not look at: no instruction reads the host's queue, so a program runs as its
instructions one after the other (20_memory.md section 5), and the commands that use the stream do not read
the tweakey words (70_reset_and_hazards.md section 3). -/

namespace Sys2Proof.Machine

open Sys2Proof

/-- An outcome with `f` applied to the next state. -/
def onNext (f : State → State) (o : Host.Outcome State Fault Refusal) :
    Host.Outcome State Fault Refusal :=
  match o with
  | .next t => .next (f t)
  | .fault r => .fault r
  | .refused r => .refused r

@[simp] theorem onNext_next (f : State → State) (t : State) : onNext f (.next t) = .next (f t) := rfl

theorem eq_onNext {f : State → State} {o o' : Host.Outcome State Fault Refusal} {t : State}
    (h : o = .next t) (h' : o' = .next (f t)) : o' = onNext f o := by
  rw [h, h', onNext_next]

/-- `f` changes nothing that the cipher commands read or write: the build, ST, the stream, CFG, STATUS. -/
structure OutsideCipher (f : State → State) : Prop where
  build : ∀ s, (f s).build = s.build
  st : ∀ s, (f s).st = s.st
  rtk : ∀ s, (f s).rtk = s.rtk
  rtkLen : ∀ s, (f s).rtkLen = s.rtkLen
  cfg : ∀ s, (f s).cfg = s.cfg
  status : ∀ s, (f s).status = s.status
  withSt : ∀ s x, (f s).withSt x = f (s.withSt x)
  withStatus : ∀ s x, (f s).withStatus x = f (s.withStatus x)

theorem outsideCipher_withPending (evs : List HostEvent) : OutsideCipher (·.withPending evs) := by
  constructor <;> intros <;> rfl

theorem outsideCipher_withTk (x y z : Cells) :
    OutsideCipher (fun s => ((s.withTk1 x).withTk2 y).withTk3 z) := by
  constructor <;> intros <;> rfl

section
variable {f : State → State} (outside : OutsideCipher f) (s : State)
include outside

/-- A write that gives ST new cells, or fails, passes `f` on. -/
theorem finishWrite_map_of_outsideCipher (check : Except ErrCode Unit) (x : Cells) :
    finishWrite (f s) (check.map fun _ => (f s).withSt x) =
      onNext f (finishWrite s (check.map fun _ => s.withSt x)) := by
  cases check with
  | error c => exact congrArg _ (outside.withStatus s _)
  | ok =>
    show Host.Outcome.next (((f s).withSt x).withStatus (okStatus (f s).status)) = _
    rw [outside.status, outside.withSt, outside.withStatus]
    rfl

theorem exec_addtk_of_outsideCipher (k : BitVec 6) :
    exec (.addtk k) (f s) = onNext f (exec (.addtk k) s) := by
  rcases Nat.lt_or_ge k.toNat s.rtkLen with held | past
  · have held' : k.toNat < (f s).rtkLen := (outside.rtkLen s).symm ▸ held
    rw [exec_addtk_of_lt held, exec_addtk_of_lt held', outside.st, State.rtkAt, outside.rtk]
    exact finishWrite_map_of_outsideCipher outside s (.ok ()) _
  · have past' : (f s).rtkLen ≤ k.toNat := (outside.rtkLen s).symm ▸ past
    rw [exec_addtk_of_ge past, exec_addtk_of_ge past']
    exact finishWrite_map_of_outsideCipher outside s (.error .schedShort) s.st

theorem checkRound_of_outsideCipher (r : Nat) : checkRound r (f s) = checkRound r s := by
  rw [checkRound, checkRound, outside.cfg, outside.rtkLen]

theorem checkEngine_of_outsideCipher : checkEngine (f s) = checkEngine s := by
  rw [checkEngine, checkEngine, outside.cfg, outside.rtkLen]

theorem exec_round_of_outsideCipher (r : BitVec 6) :
    exec (.round r) (f s) = onNext f (exec (.round r) s) := by
  rw [exec_round, exec_round, checkRound_of_outsideCipher outside,
    roundAt_congr (outside.build s) (outside.rtk s) (outside.cfg s), outside.st]
  exact finishWrite_map_of_outsideCipher outside s _ _

theorem exec_iround_of_outsideCipher (r : BitVec 6) :
    exec (.iround r) (f s) = onNext f (exec (.iround r) s) := by
  rw [exec_iround, exec_iround, checkRound_of_outsideCipher outside,
    roundInvAt_congr (outside.build s) (outside.rtk s) (outside.cfg s), outside.st]
  exact finishWrite_map_of_outsideCipher outside s _ _

theorem exec_enc_of_outsideCipher : exec .enc (f s) = onNext f (exec .enc s) := by
  rw [exec_enc, exec_enc, checkEngine_of_outsideCipher outside,
    encRounds_congr (outside.build s) (outside.rtk s) (outside.cfg s), outside.cfg, outside.st]
  exact finishWrite_map_of_outsideCipher outside s _ _

theorem exec_dec_of_outsideCipher : exec .dec (f s) = onNext f (exec .dec s) := by
  rw [exec_dec, exec_dec, checkEngine_of_outsideCipher outside,
    decRounds_congr (outside.build s) (outside.rtk s) (outside.cfg s), outside.cfg, outside.st]
  exact finishWrite_map_of_outsideCipher outside s _ _

end

/-! ### The tweakey words -/

/-- Settles O42: the writers of the tweakey words keep the stream, and the five users of the stream look at
nothing that a change of the tweakey words changes. -/
theorem tweakeyChangesLeaveTheStreamStale : Obligations.TweakeyChangesLeaveTheStreamStale := by
  refine ⟨fun s a v i address writer => ?writers, fun s x y z i user => ?users⟩
  case writers =>
    rcases writer with rfl | rfl
    · rcases address with rfl | rfl | rfl
      · exact ⟨_, exec_wr_tk1 v s, rfl, rfl, rfl⟩
      · exact ⟨_, exec_wr_tk2 v s, rfl, rfl, rfl⟩
      · exact ⟨_, exec_wr_tk3 v s, rfl, rfl, rfl⟩
    · exact ⟨_, exec_tkupd_eq s, rfl, rfl, rfl⟩
  case users =>
    have outside := outsideCipher_withTk x y z
    have same : exec i (((s.withTk1 x).withTk2 y).withTk3 z) =
        onNext (fun u => ((u.withTk1 x).withTk2 y).withTk3 z) (exec i s) := by
      rcases user with rfl | rfl | ⟨k, rfl | rfl | rfl⟩
      · exact exec_enc_of_outsideCipher outside s
      · exact exec_dec_of_outsideCipher outside s
      · exact exec_addtk_of_outsideCipher outside s k
      · exact exec_round_of_outsideCipher outside s k
      · exact exec_iround_of_outsideCipher outside s k
    obtain ⟨t, completes⟩ := exec_completes i s
    rw [completes] at same
    exact ⟨t, completes, same⟩

/-! ### The queue -/

theorem exec_command_withPending {i : Instr} (command : isCommand i = true) (s : State)
    (evs : List HostEvent) : exec i (s.withPending evs) = onNext (·.withPending evs) (exec i s) := by
  have outside := outsideCipher_withPending evs
  cases i with
  | rd | wr => exact Bool.noConfusion command
  | nop | sub | isub | perm | iperm | mix | imix | tkupd => rfl
  | addc k =>
    rcases Nat.lt_or_ge k.toNat 62 with inTable | past
    · rw [exec_addc_of_lt _ inTable, exec_addc_of_lt _ inTable]; rfl
    · rw [exec_addc_of_ge _ past, exec_addc_of_ge _ past]; rfl
  | tkgen n =>
    rcases Nat.lt_or_ge s.build.nMax n.toNat with beyond | fits
    · exact eq_onNext (exec_tkgen_of_gt beyond) (exec_tkgen_of_gt beyond)
    · exact eq_onNext (exec_tkgen_of_le fits) (exec_tkgen_of_le fits)
  | addtk k => exact exec_addtk_of_outsideCipher outside s k
  | round r => exact exec_round_of_outsideCipher outside s r
  | iround r => exact exec_iround_of_outsideCipher outside s r
  | enc => exact exec_enc_of_outsideCipher outside s
  | dec => exact exec_dec_of_outsideCipher outside s

theorem exec_wr_withPending (a : Addr) (v : Word64) (s : State) (evs : List HostEvent) :
    exec (.wr a v) (s.withPending evs) = onNext (·.withPending evs) (exec (.wr a v) s) := by
  rw [exec_wr, exec_wr, execWr, execWr, State.withPending_build]
  cases regAt s.build.nMax a with
  | cfg =>
    by_cases legal : CfgLegal s.build.nMax (cfgOfWord v)
    · exact eq_onNext (writeCfg_of_legal legal) (writeCfg_of_legal legal)
    · exact eq_onNext (writeCfg_of_not_legal legal) (writeCfg_of_not_legal legal)
  | cmd =>
    by_cases word : isCommandWord v = true
    · obtain ⟨i, answers, command, -⟩ := decodeCommand_of_isCommandWord word
      have same := exec_command_withPending command s evs
      rw [← executeCommand_eq_exec i _ command, ← executeCommand_eq_exec i _ command] at same
      simpa only [writeCmd, answers] using same
    · obtain ⟨e, refused⟩ := decodeCommand_of_not_isCommandWord (eq_false_of_ne_true word)
      simp only [writeCmd, refused]
      rfl
  | _ => rfl

/-- No instruction reads or writes the queue. -/
theorem exec_withPending (i : Instr) (s : State) (evs : List HostEvent) :
    exec i (s.withPending evs) = onNext (·.withPending evs) (exec i s) := by
  cases i with
  | rd a => rfl
  | wr a v => exact exec_wr_withPending a v s evs
  | _ => exact exec_command_withPending rfl s evs

theorem withPending_of_pending_eq {s : State} {evs : List HostEvent} (h : s.pending = evs) :
    s.withPending evs = s := by
  subst h
  rfl

/-- Settles O6, by induction on the transactions: the first step leaves the rest in the queue, and the
sequence goes on from the same state with an empty one. -/
theorem hostProgramRunsInIssueOrder : Obligations.HostProgramRunsInIssueOrder := by
  intro txs
  induction txs with
  | nil => exact fun s idle => ⟨s, congrArg _ (withPending_of_pending_eq idle), rfl⟩
  | cons tx txs ih =>
    intro s queued
    obtain ⟨u, completes⟩ := exec_completes (decode tx) s
    have first (evs : List HostEvent) :
        exec (decode tx) (s.withPending evs) = .next (u.withPending evs) := by
      rw [exec_withPending, completes, onNext_next]
    obtain ⟨t, inOrder, steps⟩ := ih (u.withPending (txs.map .transaction)) rfl
    have stepped : step s = .next (u.withPending (txs.map .transaction)) :=
      (step_of_transaction queued).trans (first _)
    exact ⟨t, (execAll_cons (first []) _).trans inOrder,
      (run_next (M := Sys2Proof.core) stepped txs.length).trans steps⟩

end Sys2Proof.Machine
end

section
/-! The bus, beside its words: what a read leaves, entries beyond the stream, and STATUS writes
(10_state.md section 3, 20_memory.md sections 2 and 6). -/

namespace Sys2Proof.Machine

open Sys2Proof

/-- Settles O17: RD appends the word to the host's and touches nothing else. -/
theorem readAnswersTheHostAndChangesNoRegister : Obligations.ReadAnswersTheHostAndChangesNoRegister :=
  exec_rd

theorem pack8_zeroTweakey : pack8 zeroTweakey = 0 := by decide

/-- Settles O18: the address is that of entry `k`, which a canonical stream holds as zero. -/
theorem entriesBeyondTheStreamReadZero : Obligations.EntriesBeyondTheStreamReadZero := by
  intro s k inv beyond held
  obtain ⟨⟨-, -, -, -, -, -, depth⟩, canonical, -, -⟩ := inv
  have address : (BitVec.ofNat 8 (0x40 + k)).toNat = 0x40 + k := by
    rw [BitVec.toNat_ofNat]
    omega
  rw [busRead_entry address held, rtkAt_beyond canonical beyond, pack8_zeroTweakey]

/-- Settles O21: a STATUS write gives STICKY its value by bit 8, and nothing else a new one. -/
theorem statusWriteClearsStickyByBitEight : Obligations.StatusWriteClearsStickyByBitEight := by
  intro v s
  rw [exec_wr_status, withStatus_writeStatus, writeStatus_sticky]

end Sys2Proof.Machine
end

section
/-! The laws of the tweakey schedule: the linear-feedback maps as inverses of each other, schedules of
different lengths, and TKGEN beside TKUPD (41_tweakey_schedule.md section 3). -/

namespace Sys2Proof.Machine

open Sys2Proof

/-! ### The linear-feedback maps -/

theorem lfsrB_lfsrA (x : Cell) : lfsrB (lfsrA x) = x := by
  revert x
  decide

theorem lfsrA_lfsrB (x : Cell) : lfsrA (lfsrB x) = x := by
  revert x
  decide

theorem lfsrA_eq_self_iff (x : Cell) : lfsrA x = x ↔ x = 0 := by
  revert x
  decide

/-- The two maps fix the same values, as they are inverses. -/
theorem lfsrB_eq_self_iff (x : Cell) : lfsrB x = x ↔ x = 0 := by
  rw [← lfsrA_eq_self_iff]
  constructor <;> intro fixed
  · rw [← fixed, lfsrA_lfsrB, fixed]
  · rw [← fixed, lfsrB_lfsrA, fixed]

theorem lfsrA_xor (x y : Cell) : lfsrA (x ^^^ y) = lfsrA x ^^^ lfsrA y := by
  revert x y
  decide

/-- Map B is linear because map A, which it undoes, is. -/
theorem lfsrB_xor (x y : Cell) : lfsrB (x ^^^ y) = lfsrB x ^^^ lfsrB y := by
  rw [← lfsrA_lfsrB x, ← lfsrA_lfsrB y, ← lfsrA_xor, lfsrB_lfsrA, lfsrA_lfsrB, lfsrA_lfsrB]

theorem lfsrA_reaches (x y : Cell) (hx : x ≠ 0) (hy : y ≠ 0) : ∃ n : Fin 15, lfsrA^[n.val] x = y := by
  revert x y
  decide

/-- Where map A leads from `y` to `x`, map B leads from `x` to `y`. -/
theorem lfsrB_reaches (x y : Cell) (hx : x ≠ 0) (hy : y ≠ 0) : ∃ n : Fin 15, lfsrB^[n.val] x = y := by
  obtain ⟨n, leads⟩ := lfsrA_reaches y x hy hx
  exact ⟨n, leads ▸ Function.LeftInverse.iterate lfsrB_lfsrA n.val y⟩

/-- Settles O37: the facts of map A are those of a table of 16 values, and map B has them as its inverse. -/
theorem linearFeedbackMapsAreInverseAndLinear : Obligations.LinearFeedbackMapsAreInverseAndLinear :=
  ⟨fun x => ⟨lfsrB_lfsrA x, lfsrA_lfsrB x, lfsrA_eq_self_iff x, lfsrB_eq_self_iff x⟩,
    fun x y => ⟨lfsrA_xor x y, lfsrB_xor x y⟩,
    fun x y hx hy => ⟨lfsrA_reaches x y hx hy, lfsrB_reaches x y hx hy⟩⟩

/-! ### The schedule -/

theorem schedule_take (b : Build) (w : TkWords) {m n : Nat} (h : m ≤ n) :
    (schedule b w n).take m = schedule b w m := by
  induction m generalizing w n with
  | zero => rfl
  | succ m ih =>
    cases n with
    | zero => omega
    | succ n => rw [schedule, schedule, List.take_succ_cons, ih _ (Nat.le_of_succ_le_succ h)]

/-- Settles O40: both schedules start with the same entry and go on from the same words. -/
theorem scheduleHasThePrefixProperty : Obligations.ScheduleHasThePrefixProperty :=
  fun b w _ n h => ⟨schedule_take b w h, schedule_length b w n⟩

/-- R148: `k` TKUPD commands make `k` schedule steps of the words. -/
theorem execAll_tkupds (s : State) (k : Nat) :
    ∃ u, execAll (List.replicate k .tkupd) s = .next u ∧
      u.tkWords = (tkStep s.build)^[k] s.tkWords := by
  induction k generalizing s with
  | zero => exact ⟨s, rfl, rfl⟩
  | succ k ih =>
    obtain ⟨u, rest, words⟩ := ih { s with
      tk1 := (tkStep s.build s.tkWords).w1
      tk2 := (tkStep s.build s.tkWords).w2
      tk3 := (tkStep s.build s.tkWords).w3
      status := { s.status with err := 0 } }
    exact ⟨u, (execAll_cons (exec_tkupd_eq s) _).trans rest, words⟩

/-- Settles O41: the entry and the words come from the same `k` schedule steps. -/
theorem streamEntryIsTheXorAfterTkupds : Obligations.StreamEntryIsTheXorAfterTkupds := by
  intro s n k written fits
  obtain ⟨u, updates, words⟩ := execAll_tkupds s k
  refine ⟨_, u, exec_tkgen_of_le fits, updates, fun i => ?_⟩
  show ((generatedStream s n.toNat).getD k zeroTweakey)[i] = _
  rw [generatedStream_getD_of_lt s written, ← words, rtkOf_get]
  rfl

end Sys2Proof.Machine
end

section
/-! The assembler: what each kind of line assembles to, and what its transactions do when they run
(30_encoding.md R78, R79). -/

namespace Sys2Proof.Machine

open Sys2Proof

/-! ### Lines and their transactions -/

theorem commandLine_of_le {op : BitVec 4} {imm : Nat} (h : imm ≤ 63) :
    commandLine op imm = some (commandTx op (BitVec.ofNat 6 imm)) := if_pos h

theorem commandLine_of_gt {op : BitVec 4} {imm : Nat} (h : 63 < imm) : commandLine op imm = none :=
  if_neg (by omega)

theorem toNat_imm {imm : Nat} (h : imm ≤ 63) : (BitVec.ofNat 6 imm).toNat = imm := by
  rw [BitVec.toNat_ofNat]
  omega

/-- R73: the word of a command as a number. -/
theorem commandWord_eq_ofNat (op : BitVec 4) (imm : BitVec 6) :
    commandWord op imm = BitVec.ofNat 64 ((op.toNat <<< 12) ||| imm.toNat) := by
  apply BitVec.eq_of_getLsbD_eq
  intro j hj
  simp only [commandWord, BitVec.getLsbD_append, BitVec.getLsbD_ofNat, Nat.testBit_or,
    Nat.testBit_shiftLeft, BitVec.testBit_toNat, hj, decide_true, Bool.true_and]
  split
  · simp [show ¬ 12 ≤ j by omega]
  have immEnds : imm.getLsbD j = false := BitVec.getLsbD_of_ge imm j (by omega)
  rw [immEnds, Bool.or_false]
  split
  · simp [show ¬ 12 ≤ j by omega]
  rw [show j - 6 - 6 = j - 12 by omega, decide_eq_true (by omega : j ≥ 12), Bool.true_and]
  split
  · rfl
  · simp [BitVec.getLsbD_of_ge op (j - 12) (by omega)]

/-- Settles O54: the split is on the edge of IMM6; RD and WR lines are the address's transaction. -/
theorem assemblyLinesAreTheirTransactions : Obligations.AssemblyLinesAreTheirTransactions := by
  refine ⟨fun nMax op imm => ⟨fun fits => ?command, fun beyond => ?refused⟩,
    fun nMax reg a v named => ⟨?read, ?write⟩⟩
  case command =>
    refine ⟨commandTx op (BitVec.ofNat 6 imm), ?_, rfl, rfl, ?_⟩
    · rw [assemble, commandLine_of_le fits, Option.map_some]
    · rw [commandTx, commandWord_eq_ofNat, toNat_imm fits]
  case refused => rw [assemble, commandLine_of_gt beyond, Option.map_none]
  case read => rw [assemble, named, Option.map_some, readTx]
  case write => rw [assemble, named, Option.map_some, writeTx]

/-! ### Register pseudo-instructions -/

/-- A write to a register other than CMD, run as the one transaction of a line. -/
theorem decode_writeTx {a : Addr} (v : Word64) (other : a ≠ cmdAddr) : decode (writeTx a v) = .wr a v := by
  rw [writeTx, decode_write, if_neg other]

theorem execAll_singleton {i : Instr} {s t : State} (h : exec i s = .next t) :
    execAll [i] s = .next t :=
  (execAll_cons h []).trans (execAll_nil t)

/-- R79: the word that SETCFG writes, its three numbers shifted into one. -/
def setcfgWord (c : Cfg) : Word64 :=
  BitVec.ofNat 64 ((c.r0.toNat <<< 16) ||| (c.ri.toNat <<< 8) ||| c.r.toNat)

theorem assemble_setcfg (nMax : Nat) (c : Cfg) :
    assemble nMax (.setcfg c.r.toNat c.ri.toNat c.r0.toNat) = some [writeTx 0x04 (setcfgWord c)] := rfl

theorem setcfgWord_getLsbD (c : Cfg) {j : Nat} (hj : j < 64) :
    (setcfgWord c).getLsbD j =
      ((decide (16 ≤ j) && c.r0.getLsbD (j - 16)) || (decide (8 ≤ j) && c.ri.getLsbD (j - 8)) ||
        c.r.getLsbD j) := by
  simp only [setcfgWord, BitVec.getLsbD_ofNat, Nat.testBit_or, Nat.testBit_shiftLeft,
    BitVec.testBit_toNat, hj, decide_true, Bool.true_and, ge_iff_le]

/-- R25: fields of six bits fit their places, so the word of SETCFG holds them. -/
theorem cfgOfWord_setcfgWord (c : Cfg) : cfgOfWord (setcfgWord c) = c := by
  obtain ⟨r, ri, r0⟩ := c
  simp only [cfgOfWord, Cfg.mk.injEq]
  refine ⟨?r, ?ri, ?r0⟩ <;> ext j hj <;>
    rw [BitVec.getElem_extractLsb', setcfgWord_getLsbD _ (by omega), ← BitVec.getLsbD_eq_getElem]
  case r => simp [show ¬ 8 ≤ j by omega, show ¬ 16 ≤ j by omega]
  case ri => simp [show ¬ 16 ≤ 8 + j by omega, BitVec.getLsbD_of_ge r (8 + j) (by omega)]
  case r0 =>
    simp [BitVec.getLsbD_of_ge r (16 + j) (by omega), BitVec.getLsbD_of_ge ri (16 + j - 8) (by omega)]

/-- Settles O55: each expansion is plain writes, to the register's own address. -/
theorem pseudoInstructionsSetTheirRegisters : Obligations.PseudoInstructionsSetTheirRegisters := by
  intro s nMax a b c r ri r0
  refine ⟨⟨_, rfl, ?ldst⟩, ⟨_, rfl, ?ldtk⟩, 
    ⟨_, assemble_setcfg nMax { r := r, ri := ri, r0 := r0 }, fun legal => ?setcfg⟩, ⟨_, rfl, ?clrsticky⟩⟩
  case ldst =>
    rw [List.map_cons, List.map_nil, decode_writeTx _ (by decide),
      execAll_singleton (exec_wr_st (pack16 a) s), unpack16_pack16]
    rfl
  case ldtk =>
    simp only [List.map_cons, List.map_nil]
    rw [decode_writeTx _ (by decide), decode_writeTx _ (by decide), decode_writeTx _ (by decide),
      execAll_cons (exec_wr_tk1 (pack16 a) s), execAll_cons (exec_wr_tk2 (pack16 b) _),
      execAll_singleton (exec_wr_tk3 (pack16 c) _), unpack16_pack16, unpack16_pack16, unpack16_pack16]
    rfl
  case setcfg =>
    rw [← cfgOfWord_setcfgWord { r := r, ri := ri, r0 := r0 }] at legal
    rw [List.map_cons, List.map_nil, decode_writeTx _ (by decide),
      execAll_singleton ((exec_wr_cfg _ s).trans (writeCfg_of_legal legal)), cfgOfWord_setcfgWord]
    rfl
  case clrsticky =>
    rw [List.map_cons, List.map_nil, decode_writeTx _ (by decide),
      execAll_singleton (exec_wr_status 0x100 s)]
    rfl

/-! ### Rounds by hand -/

/-- R79: the five commands of RNDMAN. -/
theorem roundByHand_of_le {k c : Nat} (hk : k ≤ 63) (hc : c ≤ 63) :
    ∃ txs, roundByHand k c = some txs ∧
      txs.map decode = [.sub, .addc (BitVec.ofNat 6 c), .addtk (BitVec.ofNat 6 k), .perm, .mix] := by
  rw [roundByHand, commandLine_of_le hc, commandLine_of_le hk]
  refine ⟨_, rfl, ?_⟩
  simp only [List.map_cons, List.map_nil]
  rw [decode_commandTx rfl, decode_commandTx rfl, decode_commandTx rfl, decode_commandTx rfl,
    decode_commandTx rfl]

/-- R79: the five commands of IRNDMAN. -/
theorem inverseRoundByHand_of_le {k c : Nat} (hk : k ≤ 63) (hc : c ≤ 63) :
    ∃ txs, inverseRoundByHand k c = some txs ∧
      txs.map decode = [.imix, .iperm, .addtk (BitVec.ofNat 6 k), .addc (BitVec.ofNat 6 c), .isub] := by
  rw [inverseRoundByHand, commandLine_of_le hc, commandLine_of_le hk]
  refine ⟨_, rfl, ?_⟩
  simp only [List.map_cons, List.map_nil]
  rw [decode_commandTx rfl, decode_commandTx rfl, decode_commandTx rfl, decode_commandTx rfl,
    decode_commandTx rfl]

/-! Each command of a round by hand, run from `s` with any text. -/

theorem exec_perm_withText (s : State) (x : Cells) :
    exec .perm (s.withText x) = .next (s.withText (permuteCells s.build x)) := exec_perm _

theorem exec_mix_withText (s : State) (x : Cells) :
    exec .mix (s.withText x) = .next (s.withText (diffuse s.build x)) := exec_mix _

theorem exec_iperm_withText (s : State) (x : Cells) :
    exec .iperm (s.withText x) = .next (s.withText (unpermuteCells s.build x)) := exec_iperm _

theorem exec_isub_withText (s : State) (x : Cells) :
    exec .isub (s.withText x) = .next (s.withText (isubCells s.build x)) := exec_isub _

theorem exec_addc_withText (s : State) (x : Cells) {c : Nat} (inTable : c < 62) :
    exec (.addc (BitVec.ofNat 6 c)) (s.withText x) = .next (s.withText (addConstants s.build c x)) := by
  have operand := toNat_imm (imm := c) (by omega)
  rw [exec_addc_of_lt _ (by omega), operand]
  rfl

theorem exec_addtk_withText {s : State} (x : Cells) {k : Nat} (hk : k ≤ 63) (held : k < s.rtkLen) :
    exec (.addtk (BitVec.ofNat 6 k)) (s.withText x) =
      .next (s.withText (addTweakey (s.rtkAt k) x)) := by
  have operand := toNat_imm hk
  rw [exec_addtk_of_lt (by rwa [operand]), operand]
  rfl

/-- The five commands of RNDMAN are one forward round. -/
theorem execAll_roundByHand {s : State} {k c : Nat} (hk : k ≤ 63) (held : k < s.rtkLen)
    (inTable : c < 62) :
    execAll [.sub, .addc (BitVec.ofNat 6 c), .addtk (BitVec.ofNat 6 k), .perm, .mix] s =
      .next (s.withText (roundFwd s.build (s.rtkAt k) c s.st)) := by
  have sub : exec .sub s = .next (s.withText (subCells s.build s.st)) := exec_sub s
  rw [execAll_cons sub, execAll_cons (exec_addc_withText s _ inTable),
    execAll_cons (exec_addtk_withText _ hk held), execAll_cons (exec_perm_withText s _),
    execAll_singleton (exec_mix_withText s _), roundFwd]

/-- The five commands of IRNDMAN are one inverse round. -/
theorem execAll_inverseRoundByHand {s : State} {k c : Nat} (hk : k ≤ 63) (held : k < s.rtkLen)
    (inTable : c < 62) :
    execAll [.imix, .iperm, .addtk (BitVec.ofNat 6 k), .addc (BitVec.ofNat 6 c), .isub] s =
      .next (s.withText (roundInv s.build (s.rtkAt k) c s.st)) := by
  have imix : exec .imix s = .next (s.withText (undiffuse s.build s.st)) := exec_imix s
  rw [execAll_cons imix, execAll_cons (exec_iperm_withText s _),
    execAll_cons (exec_addtk_withText _ hk held), execAll_cons (exec_addc_withText s _ inTable),
    execAll_singleton (exec_isub_withText s _), roundInv]

/-- Settles O52: by the invariant both indices of the round fit IMM6, and the constant index the table RC,
so the five commands succeed where the round does. -/
theorem roundByHandEqualsTheRound : Obligations.RoundByHandEqualsTheRound := by
  intro s r nMax inv inBranch generated
  obtain ⟨legalBuild, -, legalCfg, -⟩ := inv
  obtain ⟨index, constant⟩ := roundIndicesStayInRange _ _ _ legalBuild legalCfg inBranch
  obtain ⟨-, -, -, -, -, -, depth⟩ := legalBuild
  have operand : streamIndex s.cfg r.toNat ≤ 63 := by omega
  have inTable : constantIndex s.build s.cfg r.toNat < 62 := by omega
  have operand' : constantIndex s.build s.cfg r.toNat ≤ 63 := by omega
  obtain ⟨fwd, assembles, decodes⟩ := roundByHand_of_le operand operand'
  obtain ⟨inv, assembles', decodes'⟩ := inverseRoundByHand_of_le operand operand'
  refine ⟨fwd, inv, assembles, assembles', ?fwd, ?inv⟩
  case fwd =>
    rw [decodes, execAll_roundByHand operand generated inTable, exec_round_of_lt inBranch generated]
    rfl
  case inv =>
    rw [decodes', execAll_inverseRoundByHand operand generated inTable,
      exec_iround_of_lt inBranch generated]
    rfl

end Sys2Proof.Machine
end
